-- ==== Sys2Proof/Word.lean ====
section
/-! DEFINITION. The word types of the machine (spec/00_scope.md R8, R11; spec/30_encoding.md R101). -/

namespace Sys2Proof

/-- A register V0..VF, a timer, a memory byte, the field `nn` (R11, R101). -/
abbrev Byte := BitVec 8

/-- PC, I, a stack slot, an instruction word (R8, R34, R38, R39, R100). -/
abbrev Word := BitVec 16

/-- The fields `x`, `y` and `n`: a 4-bit register index or count (R31, R101). -/
abbrev Nibble := BitVec 4

/-- The field `nnn`: a 12-bit address (R101, R102). -/
abbrev Addr12 := BitVec 12

end Sys2Proof
end

