-- ==== Sys2Proof/Config.lean ====
section
/-! DEFINITION. The parameters the spec lets a model take as arguments (spec/00_scope.md R9), and the free random
byte. Their default values are in Sys2Proof/Machine/Params.lean. -/

namespace Sys2Proof

/-- FLAG_ORDER: which write to VF remains when an 8xyN instruction has x = F (R9, R181). -/
inductive FlagOrder where
  /-- `V[x] <- res; V[15] <- f`: the flag remains. -/
  | flagLast
  /-- `V[15] <- f; V[x] <- res`: the result remains. -/
  | resultLast
  deriving DecidableEq, Repr

/-- DECODE_5_9: what a word 5xyN or 9xyN with N not 0 is (R9, R109). -/
inductive Decode59 where
  /-- It matches no pattern and is a no-op. -/
  | strictNop
  /-- It executes as 5xy0 or 9xy0. -/
  | ignoreLowNibble
  /-- It has no meaning: a refusal, not a fault. -/
  | refuse
  deriving DecidableEq, Repr

/-- I_ADD_OVERFLOW: what Fx1E does when the sum passes 0xFFFF (R9, R222). -/
inductive IAddOverflow where
  /-- The sum is taken modulo 65536. -/
  | wrap16
  /-- The instruction raises IndexOverflow. -/
  | fault
  deriving DecidableEq, Repr

/-- The configuration of one machine: fixed for the machine, read by the step, written by nothing.
`timerDivisor` is an integer at least 1 (R9); `font` is the 80 bytes of FONT (R355).
MEM0 is the argument of `State.powerOn` instead (R353). -/
structure Config where
  timerDivisor : Nat
  font : Vector Byte 80
  flagOrder : FlagOrder
  decode59 : Decode59
  iAddOverflow : IAddOverflow
  deriving DecidableEq, Repr

/-- The free source of random bytes: the byte of the n-th draw for which the host has supplied none.
No law is assumed of it beyond its width (R15, R193). It has no body, so no proof can know a value of it. -/
opaque Config.freeByte : Nat → Byte

end Sys2Proof
end

