-- ==== Sys2Proof/Machine/Params.lean ====
section
/-! DEFINITION. The default value of every parameter (spec/00_scope.md R9; spec/70_reset_and_hazards.md R357). -/

namespace Sys2Proof.Machine

/-- TIMER_DIVISOR's default (R9, R321). -/
def defaultTimerDivisor : Nat := 9

/-- One glyph of five rows (R8). -/
def glyph (a b c d e : Byte) : Vector Byte 5 := #v[a, b, c, d, e]

/-- FONT's default, digit by digit, glyph d at d*5 (R357). -/
def defaultFont : Vector Byte 80 :=
  glyph 0xF0 0x90 0x90 0x90 0xF0 ++
  glyph 0x20 0x60 0x20 0x20 0x70 ++
  glyph 0xF0 0x10 0xF0 0x80 0xF0 ++
  glyph 0xF0 0x10 0xF0 0x10 0xF0 ++
  glyph 0x90 0x90 0xF0 0x10 0x10 ++
  glyph 0xF0 0x80 0xF0 0x10 0xF0 ++
  glyph 0xF0 0x80 0xF0 0x90 0xF0 ++
  glyph 0xF0 0x10 0x20 0x40 0x40 ++
  glyph 0xF0 0x90 0xF0 0x90 0xF0 ++
  glyph 0xF0 0x90 0xF0 0x10 0xF0 ++
  glyph 0xF0 0x90 0xF0 0x90 0x90 ++
  glyph 0xE0 0x90 0xE0 0x90 0xE0 ++
  glyph 0xF0 0x80 0x80 0x80 0xF0 ++
  glyph 0xE0 0x90 0x90 0x90 0xE0 ++
  glyph 0xF0 0x80 0xF0 0x80 0xF0 ++
  glyph 0xF0 0x80 0xF0 0x80 0x80

/-- FLAG_ORDER's default (R9, R181). -/
def defaultFlagOrder : FlagOrder := .flagLast

/-- DECODE_5_9's default (R9, R109). -/
def defaultDecode59 : Decode59 := .strictNop

/-- I_ADD_OVERFLOW's default (R9, R222). -/
def defaultIAddOverflow : IAddOverflow := .wrap16

/-- The default machine (R9). -/
def defaultConfig : Config :=
  { timerDivisor := defaultTimerDivisor, font := defaultFont, flagOrder := defaultFlagOrder,
    decode59 := defaultDecode59, iAddOverflow := defaultIAddOverflow }

end Sys2Proof.Machine
end

