-- ==== Sys2Proof/Syntax.lean ====
section
/-! DEFINITION. The instructions: one constructor per row of spec/opcode_table.json (spec/30_encoding.md R108, R111,
R112), carrying the fields the row names. -/

namespace Sys2Proof

/-- The decoded instruction. `x`, `y` are register indices, `n` a count, `nn` a byte, `nnn` an address (R101).
8xy6 and 8xyE encode `y` and do not read it (R190, R192). A no-op carries the low 12 bits of its word, which with
its family nibble are the whole word (R111, R136). -/
inductive Instr where
  -- control flow (41_control_flow.md)
  | ret
  | jp (nnn : Addr12)
  | call (nnn : Addr12)
  | seVxNn (x : Nibble) (nn : Byte)
  | sneVxNn (x : Nibble) (nn : Byte)
  | seVxVy (x y : Nibble)
  | sneVxVy (x y : Nibble)
  | jpV0Nnn (nnn : Addr12)
  -- loads and arithmetic (42_alu.md)
  | ldVxNn (x : Nibble) (nn : Byte)
  | addVxNn (x : Nibble) (nn : Byte)
  | ldVxVy (x y : Nibble)
  | orVxVy (x y : Nibble)
  | andVxVy (x y : Nibble)
  | xorVxVy (x y : Nibble)
  | addVxVy (x y : Nibble)
  | subVxVy (x y : Nibble)
  | shrVx (x y : Nibble)
  | subnVxVy (x y : Nibble)
  | shlVx (x y : Nibble)
  | rnd (x : Nibble) (nn : Byte)
  -- index register and memory (43_index_memory.md)
  | ldINnn (nnn : Addr12)
  | addIVx (x : Nibble)
  | ldFVx (x : Nibble)
  | ldBVx (x : Nibble)
  | ldMemVx (x : Nibble)
  | ldVxMem (x : Nibble)
  -- display (44_display.md)
  | cls
  | drw (x y n : Nibble)
  -- keys and timers (45_timers_keys.md)
  | skp (x : Nibble)
  | sknp (x : Nibble)
  | ldVxDt (x : Nibble)
  | ldVxK (x : Nibble)
  | ldDtVx (x : Nibble)
  | ldStVx (x : Nibble)
  -- the no-op space (30_encoding.md R112)
  | nop0 (w : Addr12)
  | nop5 (w : Addr12)
  | nop8 (w : Addr12)
  | nop9 (w : Addr12)
  | nopE (w : Addr12)
  | nopF (w : Addr12)
  deriving DecidableEq, Repr

end Sys2Proof
end

