-- ==== Sys2Proof/WellFormed.lean ====
section
/-! DEFINITION. Which terms of Instr stand for a word: every value of every field of a specific row
(spec/10_state.md R31, spec/30_encoding.md R103), and of a no-op exactly the words of the no-op space (R112). -/

namespace Sys2Proof

/-- The low nibble of a no-op's payload: the field `n` of its word (R101). -/
def payloadN (w : Addr12) : Nibble := w.extractLsb' 0 4

/-- The low byte of a no-op's payload: the field `nn` of its word (R101). -/
def payloadNn (w : Addr12) : Byte := w.extractLsb' 0 8

/-- The sub-opcodes of family 8 that select an instruction (R106). -/
def aluSubOps : List Nibble := [0x0, 0x1, 0x2, 0x3, 0x4, 0x5, 0x6, 0x7, 0xE]

/-- The sub-opcodes of family E that select an instruction (R107). -/
def keySubOps : List Byte := [0x9E, 0xA1]

/-- The sub-opcodes of family F that select an instruction (R107). -/
def miscSubOps : List Byte := [0x07, 0x0A, 0x15, 0x18, 0x1E, 0x29, 0x33, 0x55, 0x65]

/-- The check: a no-op constructor stands only for a word that selects no specific row (R112). -/
def Instr.wf : Instr → Bool
  | .nop0 w => w != 0x0E0 && w != 0x0EE
  | .nop5 w => payloadN w != 0
  | .nop8 w => !(aluSubOps.contains (payloadN w))
  | .nop9 w => payloadN w != 0
  | .nopE w => !(keySubOps.contains (payloadNn w))
  | .nopF w => !(miscSubOps.contains (payloadNn w))
  | .ret | .jp _ | .call _ | .seVxNn _ _ | .sneVxNn _ _ | .seVxVy _ _ | .sneVxVy _ _ | .jpV0Nnn _ => true
  | .ldVxNn _ _ | .addVxNn _ _ | .ldVxVy _ _ | .orVxVy _ _ | .andVxVy _ _ | .xorVxVy _ _ | .addVxVy _ _ => true
  | .subVxVy _ _ | .shrVx _ _ | .subnVxVy _ _ | .shlVx _ _ | .rnd _ _ => true
  | .ldINnn _ | .addIVx _ | .ldFVx _ | .ldBVx _ | .ldMemVx _ | .ldVxMem _ | .cls | .drw _ _ _ => true
  | .skp _ | .sknp _ | .ldVxDt _ | .ldVxK _ | .ldDtVx _ | .ldStVx _ => true

end Sys2Proof
end

