-- ==== Sys2Proof/Decode.lean ====
section
/-! DEFINITION. Decoding a word or a list of bytes (spec/30_encoding.md R100 to R112), the encoder, and the opcode
table as data (R108). -/

namespace Sys2Proof

/-- Why the decoder gives no instruction. -/
inductive DecodeReject where
  /-- Fewer than the 2 bytes of an instruction are there (R100); only a list of bytes can raise it, never the step. -/
  | truncated
  /-- 5xyN or 9xyN with N not 0 under DECODE_5_9 = refuse (R109). -/
  | nibble59 (w : Word)
  deriving DecidableEq, Repr

/-- What the decoder answers. -/
inductive Decoded (α : Type) where
  | ok (a : α)
  | reject (r : DecodeReject)
  deriving DecidableEq, Repr

/-- The field `op` = w[15:12] (R101). -/
def opField (w : Word) : Nibble := w.extractLsb' 12 4

/-- The field `x` = w[11:8] (R101). -/
def xField (w : Word) : Nibble := w.extractLsb' 8 4

/-- The field `y` = w[7:4] (R101). -/
def yField (w : Word) : Nibble := w.extractLsb' 4 4

/-- The field `n` = w[3:0] (R101). -/
def nField (w : Word) : Nibble := w.extractLsb' 0 4

/-- The field `nn` = w[7:0] (R101). -/
def nnField (w : Word) : Byte := w.extractLsb' 0 8

/-- The field `nnn` = w[11:0] (R101). -/
def nnnField (w : Word) : Addr12 := w.extractLsb' 0 12

/-- Family 0 compares the whole word (R105). -/
def decodeFamily0 (w : Word) : Instr :=
  if w = 0x00E0 then .cls else if w = 0x00EE then .ret else .nop0 (nnnField w)

/-- Family 8 selects on `n` (R106). -/
def decodeFamily8 (w : Word) : Instr :=
  match (nField w).toNat with
  | 0x0 => .ldVxVy (xField w) (yField w)
  | 0x1 => .orVxVy (xField w) (yField w)
  | 0x2 => .andVxVy (xField w) (yField w)
  | 0x3 => .xorVxVy (xField w) (yField w)
  | 0x4 => .addVxVy (xField w) (yField w)
  | 0x5 => .subVxVy (xField w) (yField w)
  | 0x6 => .shrVx (xField w) (yField w)
  | 0x7 => .subnVxVy (xField w) (yField w)
  | 0xE => .shlVx (xField w) (yField w)
  | _ => .nop8 (nnnField w)

/-- Family E selects on `nn` (R107). -/
def decodeFamilyE (w : Word) : Instr :=
  match (nnField w).toNat with
  | 0x9E => .skp (xField w)
  | 0xA1 => .sknp (xField w)
  | _ => .nopE (nnnField w)

/-- Family F selects on `nn` (R107). -/
def decodeFamilyF (w : Word) : Instr :=
  match (nnField w).toNat with
  | 0x07 => .ldVxDt (xField w)
  | 0x0A => .ldVxK (xField w)
  | 0x15 => .ldDtVx (xField w)
  | 0x18 => .ldStVx (xField w)
  | 0x1E => .addIVx (xField w)
  | 0x29 => .ldFVx (xField w)
  | 0x33 => .ldBVx (xField w)
  | 0x55 => .ldMemVx (xField w)
  | 0x65 => .ldVxMem (xField w)
  | _ => .nopF (nnnField w)

/-- Families 5 and 9: `base` is the instruction of the pattern with low nibble 0, `nop` the no-op of the word; the
parameter decides the words with another low nibble (R109). -/
def decodeFamily59 (d : Decode59) (w : Word) (base nop : Instr) : Decoded Instr :=
  if nField w = 0 then .ok base
  else match d with
    | .strictNop => .ok nop
    | .ignoreLowNibble => .ok base
    | .refuse => .reject (.nibble59 w)

/-- The decoder: it selects on `op` first (R104). It reads only the word (R110). -/
def decode (d : Decode59) (w : Word) : Decoded Instr :=
  match (opField w).toNat with
  | 0x0 => .ok (decodeFamily0 w)
  | 0x1 => .ok (.jp (nnnField w))
  | 0x2 => .ok (.call (nnnField w))
  | 0x3 => .ok (.seVxNn (xField w) (nnField w))
  | 0x4 => .ok (.sneVxNn (xField w) (nnField w))
  | 0x5 => decodeFamily59 d w (.seVxVy (xField w) (yField w)) (.nop5 (nnnField w))
  | 0x6 => .ok (.ldVxNn (xField w) (nnField w))
  | 0x7 => .ok (.addVxNn (xField w) (nnField w))
  | 0x8 => .ok (decodeFamily8 w)
  | 0x9 => decodeFamily59 d w (.sneVxVy (xField w) (yField w)) (.nop9 (nnnField w))
  | 0xA => .ok (.ldINnn (nnnField w))
  | 0xB => .ok (.jpV0Nnn (nnnField w))
  | 0xC => .ok (.rnd (xField w) (nnField w))
  | 0xD => .ok (.drw (xField w) (yField w) (nField w))
  | 0xE => .ok (decodeFamilyE w)
  | _ => .ok (decodeFamilyF w)

/-- The instruction word of two consecutive bytes: the byte at the lower address is bits 15..8 (20_memory.md R76). -/
def wordOfBytes (hi lo : Byte) : Word := hi ++ lo

/-- The byte at the lower address (R76). -/
def hiByte (w : Word) : Byte := w.extractLsb' 8 8

/-- The byte at the higher address (R76). -/
def loByte (w : Word) : Byte := w.extractLsb' 0 8

/-- Decodes the first instruction of a list of bytes and gives the rest of the list (R76, R100, R115). -/
def decodeBytes (d : Decode59) : List Byte → Decoded (Instr × List Byte)
  | hi :: lo :: rest =>
    match decode d (wordOfBytes hi lo) with
    | .ok i => .ok (i, rest)
    | .reject r => .reject r
  | _ => .reject .truncated

/-- The encoder, from the patterns of R108 and R112. -/
def encode : Instr → Word
  | .cls => 0x00E0#16
  | .ret => 0x00EE#16
  | .jp nnn => 0x1#4 ++ nnn
  | .call nnn => 0x2#4 ++ nnn
  | .seVxNn x nn => 0x3#4 ++ x ++ nn
  | .sneVxNn x nn => 0x4#4 ++ x ++ nn
  | .seVxVy x y => 0x5#4 ++ x ++ y ++ 0x0#4
  | .sneVxVy x y => 0x9#4 ++ x ++ y ++ 0x0#4
  | .ldVxNn x nn => 0x6#4 ++ x ++ nn
  | .addVxNn x nn => 0x7#4 ++ x ++ nn
  | .ldVxVy x y => 0x8#4 ++ x ++ y ++ 0x0#4
  | .orVxVy x y => 0x8#4 ++ x ++ y ++ 0x1#4
  | .andVxVy x y => 0x8#4 ++ x ++ y ++ 0x2#4
  | .xorVxVy x y => 0x8#4 ++ x ++ y ++ 0x3#4
  | .addVxVy x y => 0x8#4 ++ x ++ y ++ 0x4#4
  | .subVxVy x y => 0x8#4 ++ x ++ y ++ 0x5#4
  | .shrVx x y => 0x8#4 ++ x ++ y ++ 0x6#4
  | .subnVxVy x y => 0x8#4 ++ x ++ y ++ 0x7#4
  | .shlVx x y => 0x8#4 ++ x ++ y ++ 0xE#4
  | .ldINnn nnn => 0xA#4 ++ nnn
  | .jpV0Nnn nnn => 0xB#4 ++ nnn
  | .rnd x nn => 0xC#4 ++ x ++ nn
  | .drw x y n => 0xD#4 ++ x ++ y ++ n
  | .skp x => 0xE#4 ++ x ++ 0x9E#8
  | .sknp x => 0xE#4 ++ x ++ 0xA1#8
  | .ldVxDt x => 0xF#4 ++ x ++ 0x07#8
  | .ldVxK x => 0xF#4 ++ x ++ 0x0A#8
  | .ldDtVx x => 0xF#4 ++ x ++ 0x15#8
  | .ldStVx x => 0xF#4 ++ x ++ 0x18#8
  | .addIVx x => 0xF#4 ++ x ++ 0x1E#8
  | .ldFVx x => 0xF#4 ++ x ++ 0x29#8
  | .ldBVx x => 0xF#4 ++ x ++ 0x33#8
  | .ldMemVx x => 0xF#4 ++ x ++ 0x55#8
  | .ldVxMem x => 0xF#4 ++ x ++ 0x65#8
  | .nop0 w => 0x0#4 ++ w
  | .nop5 w => 0x5#4 ++ w
  | .nop8 w => 0x8#4 ++ w
  | .nop9 w => 0x9#4 ++ w
  | .nopE w => 0xE#4 ++ w
  | .nopF w => 0xF#4 ++ w

/-- One row of the opcode list: a word selects it iff `(w AND mask) = pattern` (R108). -/
structure OpRow where
  mask : Word
  pattern : Word
  deriving DecidableEq, Repr

/-- Whether a word selects a row (R108). -/
def OpRow.selects (r : OpRow) (w : Word) : Bool := (w &&& r.mask) == r.pattern

/-- The 34 rows in the source's order (R108). -/
def specificRows : List OpRow :=
  [⟨0xFFFF, 0x00E0⟩, ⟨0xFFFF, 0x00EE⟩, ⟨0xF000, 0x1000⟩, ⟨0xF000, 0x2000⟩, ⟨0xF000, 0x3000⟩, ⟨0xF000, 0x4000⟩,
   ⟨0xF00F, 0x5000⟩, ⟨0xF00F, 0x9000⟩, ⟨0xF000, 0x6000⟩, ⟨0xF000, 0x7000⟩] ++
  [⟨0xF00F, 0x8000⟩, ⟨0xF00F, 0x8001⟩, ⟨0xF00F, 0x8002⟩, ⟨0xF00F, 0x8003⟩, ⟨0xF00F, 0x8004⟩, ⟨0xF00F, 0x8005⟩,
   ⟨0xF00F, 0x8006⟩, ⟨0xF00F, 0x8007⟩, ⟨0xF00F, 0x800E⟩] ++
  [⟨0xF000, 0xA000⟩, ⟨0xF000, 0xB000⟩, ⟨0xF000, 0xC000⟩, ⟨0xF000, 0xD000⟩, ⟨0xF0FF, 0xE09E⟩, ⟨0xF0FF, 0xE0A1⟩] ++
  [⟨0xF0FF, 0xF007⟩, ⟨0xF0FF, 0xF00A⟩, ⟨0xF0FF, 0xF015⟩, ⟨0xF0FF, 0xF018⟩, ⟨0xF0FF, 0xF01E⟩, ⟨0xF0FF, 0xF029⟩,
   ⟨0xF0FF, 0xF033⟩, ⟨0xF0FF, 0xF055⟩, ⟨0xF0FF, 0xF065⟩]

/-- The table's row of an instruction: the mask and match of its mnemonic in spec/opcode_table.json. -/
def Instr.row : Instr → OpRow
  | .cls => ⟨0xFFFF, 0x00E0⟩
  | .ret => ⟨0xFFFF, 0x00EE⟩
  | .jp _ => ⟨0xF000, 0x1000⟩
  | .call _ => ⟨0xF000, 0x2000⟩
  | .seVxNn _ _ => ⟨0xF000, 0x3000⟩
  | .sneVxNn _ _ => ⟨0xF000, 0x4000⟩
  | .seVxVy _ _ => ⟨0xF00F, 0x5000⟩
  | .sneVxVy _ _ => ⟨0xF00F, 0x9000⟩
  | .ldVxNn _ _ => ⟨0xF000, 0x6000⟩
  | .addVxNn _ _ => ⟨0xF000, 0x7000⟩
  | .ldVxVy _ _ => ⟨0xF00F, 0x8000⟩
  | .orVxVy _ _ => ⟨0xF00F, 0x8001⟩
  | .andVxVy _ _ => ⟨0xF00F, 0x8002⟩
  | .xorVxVy _ _ => ⟨0xF00F, 0x8003⟩
  | .addVxVy _ _ => ⟨0xF00F, 0x8004⟩
  | .subVxVy _ _ => ⟨0xF00F, 0x8005⟩
  | .shrVx _ _ => ⟨0xF00F, 0x8006⟩
  | .subnVxVy _ _ => ⟨0xF00F, 0x8007⟩
  | .shlVx _ _ => ⟨0xF00F, 0x800E⟩
  | .ldINnn _ => ⟨0xF000, 0xA000⟩
  | .jpV0Nnn _ => ⟨0xF000, 0xB000⟩
  | .rnd _ _ => ⟨0xF000, 0xC000⟩
  | .drw _ _ _ => ⟨0xF000, 0xD000⟩
  | .skp _ => ⟨0xF0FF, 0xE09E⟩
  | .sknp _ => ⟨0xF0FF, 0xE0A1⟩
  | .ldVxDt _ => ⟨0xF0FF, 0xF007⟩
  | .ldVxK _ => ⟨0xF0FF, 0xF00A⟩
  | .ldDtVx _ => ⟨0xF0FF, 0xF015⟩
  | .ldStVx _ => ⟨0xF0FF, 0xF018⟩
  | .addIVx _ => ⟨0xF0FF, 0xF01E⟩
  | .ldFVx _ => ⟨0xF0FF, 0xF029⟩
  | .ldBVx _ => ⟨0xF0FF, 0xF033⟩
  | .ldMemVx _ => ⟨0xF0FF, 0xF055⟩
  | .ldVxMem _ => ⟨0xF0FF, 0xF065⟩
  | .nop0 _ => ⟨0xF000, 0x0000⟩
  | .nop5 _ => ⟨0xF000, 0x5000⟩
  | .nop8 _ => ⟨0xF000, 0x8000⟩
  | .nop9 _ => ⟨0xF000, 0x9000⟩
  | .nopE _ => ⟨0xF000, 0xE000⟩
  | .nopF _ => ⟨0xF000, 0xF000⟩

/-- The instruction the decoder reads from a table word, under the default DECODE_5_9: the word's two bytes as the
hardware stores them, high byte first (R76), given to `decodeBytes`. Bits above `nbits` are 0. -/
def decodeTableWord (nbits w : Nat) : Option Instr :=
  let word : Word := BitVec.ofNat 16 (w % 2 ^ nbits)
  match decodeBytes Machine.defaultDecode59 [hiByte word, loByte word] with
  | .ok (i, _) => some i
  | .reject _ => none

end Sys2Proof
end

