-- ==== Sys2Proof/Machine/Memory.lean ====
section
/-! DEFINITION. Memory as plain data: a list of (address, byte) pairs in one canonical form, with its read and write
(spec/20_memory.md R70 to R72). -/

namespace Sys2Proof.Machine

/-- `MEM_SIZE`: addresses 0x000 to 0xFFF exist (R8, R70). -/
abbrev memSize : Nat := 4096

/-- The memory: strictly rising addresses below `memSize`, no entry equal to what an unlisted address reads as. -/
abbrev Memory := List Host.Cell

/-- What an unlisted address reads as: MEM0's value 0x00 of a simulator (R353; DESIGN CHOICE, log 1). -/
def unlistedByte : Byte := 0x00

/-- The byte at an address (R71). The bound is checked by the accessors of Operands.lean, not here. -/
def Memory.read : Memory → Nat → Byte
  | [], _ => unlistedByte
  | (k, b) :: rest, a => if k = a then b else Memory.read rest a

/-- Puts an entry at its place in a list that has none for its address. -/
def Memory.insert : Memory → Nat → Byte → Memory
  | [], a, b => [(a, b)]
  | (k, v) :: rest, a, b => if a < k then (a, b) :: (k, v) :: rest else (k, v) :: Memory.insert rest a b

/-- Takes every entry of an address out. -/
def Memory.erase (m : Memory) (a : Nat) : Memory := m.filter fun cell => cell.1 != a

/-- Sets the byte at an address (R72), keeping the canonical form. -/
def Memory.write (m : Memory) (a : Nat) (b : Byte) : Memory :=
  if b = unlistedByte then Memory.erase m a else Memory.insert (Memory.erase m a) a b

/-- Sets the bytes at consecutive addresses, in rising order. -/
def Memory.writeBytes (m : Memory) (a : Nat) : List Byte → Memory
  | [] => m
  | b :: bs => Memory.writeBytes (Memory.write m a b) (a + 1) bs

/-- The bytes at `count` consecutive addresses, the lowest first. -/
def Memory.readBytes (m : Memory) (a : Nat) : Nat → List Byte
  | 0 => []
  | count + 1 => Memory.read m a :: Memory.readBytes m (a + 1) count

/-- Whether the addresses rise strictly. -/
def Memory.rising : Memory → Bool
  | [] => true
  | [_] => true
  | (k, _) :: (l, c) :: rest => decide (k < l) && Memory.rising ((l, c) :: rest)

/-- The canonical form. -/
def Memory.wf (m : Memory) : Bool :=
  Memory.rising m && m.all fun cell => decide (cell.1 < memSize) && cell.2 != unlistedByte

end Sys2Proof.Machine
end

