-- ==== Sys2Proof/Machine/State.lean ====
section
/-! DEFINITION. The state of the machine as plain data, the faults and refusals, and the state after reset
(spec/10_state.md R30 to R52; spec/60_exceptions.md R301; spec/70_reset_and_hazards.md R350). -/

namespace Sys2Proof.Machine

/-- The fault causes (R301). A cause is both what the `fault` register holds (R47) and what a step in HALTED returns
(R137). Each is the spec's own stop: after it nothing executes until reset, so stopping is safe. -/
inductive Fault where
  /-- Code 1: raised by 2nnn when SP = 16 (R302); safe, the spec's own fault. -/
  | stackOverflow
  /-- Code 2: raised by 00EE when SP = 0 (R303); safe, the spec's own fault. -/
  | stackUnderflow
  /-- Code 3: raised by the fetch of a step when PC is above 0xFFE (R304); safe, the spec's own fault. -/
  | fetchOutOfBounds
  /-- Code 4: raised by Dxyn, Fx33, Fx55, Fx65 when an accessed address is above 0xFFF (R305); safe, the fault the
  spec decides (D5). -/
  | memoryOutOfBounds
  /-- Code 5: raised by Fx1E under I_ADD_OVERFLOW = fault when I + Vx is above 0xFFFF (R306); safe, the fault the spec
  decides (D6). -/
  | indexOverflow
  deriving DecidableEq, Repr

/-- The code of a cause (R301). No instruction reads it. -/
def Fault.code : Fault → Nat
  | .stackOverflow => 1
  | .stackUnderflow => 2
  | .fetchOutOfBounds => 3
  | .memoryOutOfBounds => 4
  | .indexOverflow => 5

/-- Why a step has no meaning. -/
inductive Refusal where
  /-- An instruction whose meaning is not written yet: raised by an arm of exec only; safe. No arm raises it. -/
  | notModelled (mnemonic : String)
  /-- A word 5xyN or 9xyN with N not 0 under DECODE_5_9 = refuse, raised by the decode phase of a step: "the model
  gives it no meaning (a refusal, not a fault)" (R109, R133); safe. -/
  | undefinedLowNibble (w : Word)
  deriving DecidableEq, Repr

/-- The framebuffer: 32 rows of 64 pixels; `true` is a set pixel (R44, R250). -/
abbrev Framebuffer := Vector (Vector Bool 64) 32

/-- The framebuffer with every pixel clear (R52, R252). -/
def Framebuffer.blank : Framebuffer := Vector.replicate 32 (Vector.replicate 64 false)

/-- The whole state (R30): the components of R31 to R48, and three fields of the model's own (`cfg`, `randIn`,
`draws`). -/
structure State where
  /-- V0..VF (R31); VF is the flag register too (R32). -/
  v : Vector Byte 16
  /-- PC (R34). -/
  pc : Word
  /-- I (R38). -/
  i : Word
  /-- stack[0..15] (R39). -/
  stack : Vector Word 16
  /-- SP, 0..16: the next free slot (R40). -/
  sp : Fin 17
  /-- DT, the delay timer (R41). -/
  dt : Byte
  /-- ST, the sound timer (R42). -/
  st : Byte
  /-- The count of steps that fetched successfully (R43). -/
  tick : Nat
  /-- FB (R44). -/
  fb : Framebuffer
  /-- The redraw flag (R45). -/
  redraw : Bool
  /-- The key flags; `true` is pressed (R46). -/
  keys : Vector Bool 16
  /-- The fault register: none is RUN, a cause is HALTED (R47, R137). -/
  fault : Option Fault
  /-- The 4096 bytes (R48, R70). -/
  mem : Memory
  /-- The parameters of this machine (R9); nothing writes it (log 2). -/
  cfg : Config
  /-- The byte the host supplies on `rand_in` to the coming step, and to no other (R55, R130); none where it has
  supplied none (log 8). -/
  randIn : Option Byte
  /-- How many draws found no byte there: the index of the next free byte (R15; log 8). -/
  draws : Nat
  deriving DecidableEq, Repr

/-- The machine right after reset (R52, R350), with nothing loaded: no memory entry listed, the default parameters,
nothing on `rand_in`. -/
def State.reset : State :=
  { v := Vector.replicate 16 0
    pc := 0x200
    i := 0
    stack := Vector.replicate 16 0
    sp := 0
    dt := 0
    st := 0
    tick := 0
    fb := Framebuffer.blank
    redraw := false
    keys := Vector.replicate 16 false
    fault := none
    mem := []
    cfg := defaultConfig
    randIn := none
    draws := 0 }

end Sys2Proof.Machine
end

