-- ==== Sys2Proof/Machine/Ops.lean ====
section
/-! DEFINITION. The named operations every meaning and the step share: registers, fetch, tick and countdown, raising a
fault and committing a step (spec/40_cycle.md R130 to R137; spec/60_exceptions.md R300, R320, R321). -/

namespace Sys2Proof.Machine

/-- What executing answers. -/
abbrev Result := Host.Outcome State Fault Refusal

/-- `V[x]` (R12, R31). -/
def State.reg (s : State) (x : Nibble) : Byte := s.v[x.toNat]

/-- `V[x] <- b` (R12, R31). -/
def State.setReg (s : State) (x : Nibble) (b : Byte) : State := { s with v := s.v.set x.toNat b }

/-- `PC <- target` (R12). -/
def State.setPc (s : State) (target : Word) : State := { s with pc := target }

/-- `I <- a`. -/
def State.setI (s : State) (a : Word) : State := { s with i := a }

/-- `MemRead(a, 1)` for an address whose bound has been checked (R71). -/
def State.readByte (s : State) (a : Nat) : Byte := s.mem.read a

/-! ## Faults -/

/-- `fault <- c`, and nothing else (R14, R300). -/
def State.raise (s : State) (c : Fault) : State := { s with fault := some c }

/-- Taking a fault, the one shared operation of every instruction and of the fetch that raises one: the answer is the
NEXT state, in which the fault register holds the cause (R300). No register saves PC, no mode changes and no handler
runs (R310); the step discards what its earlier phases wrote (`commit`). -/
def raiseFault (c : Fault) (s : State) : Result := .next (s.raise c)

/-- `rand_in` with no byte for the coming step: a byte is an input of one step (R55, R130), and the next step has its
own (R340). -/
def State.clearRandIn (s : State) : State := { s with randIn := none }

/-- The end of a step that began at `s`: if the instruction raised a fault, every write of the step (PC advance, tick,
countdown and all) is discarded and `fault <- c` is its only effect (R130, R300); else its state is the next one, and
the step's random byte, drawn or not, is gone (log 8). -/
def commit (s : State) : Result → Result
  | .next t =>
    match t.fault with
    | none => .next t.clearRandIn
    | some c => raiseFault c s
  | .fault r => .fault r
  | .refused r => .refused r

/-! ## Phase F: fetch -/

/-- The fetch is in bounds iff PC is at most 0xFFE (R77, R131). -/
def fetchInBounds (s : State) : Bool := decide (s.pc.toNat ≤ 0xFFE)

/-- The big-endian word at PC and PC + 1 (R76). -/
def fetchWord (s : State) : Word := wordOfBytes (s.readByte s.pc.toNat) (s.readByte (s.pc.toNat + 1))

/-- `PC <- PC + 2` (R131). -/
def fetchAdvance (s : State) : State := s.setPc (s.pc + 2)

/-! ## Phase T: tick and countdown -/

/-- One timer's countdown: toward 0, never below (R321). -/
def countDown (b : Byte) : Byte := if b = 0 then 0 else b - 1

/-- Whether the countdown happens at this tick (R321). -/
def countsDownAt (divisor tick : Nat) : Bool := tick % divisor == 0

/-- `tick <- tick + 1`, then the countdown of both timers if the new tick is a multiple of the divisor (R132, R320,
R321). -/
def tickPhase (s : State) : State :=
  if countsDownAt s.cfg.timerDivisor (s.tick + 1)
  then { s with tick := s.tick + 1, dt := countDown s.dt, st := countDown s.st }
  else { s with tick := s.tick + 1 }

/-- Phases F and T of a step whose fetch is in bounds: the state the instruction executes against, with PC at the
fetched address + 2 (R134). -/
def beforeExecute (s : State) : State := tickPhase (fetchAdvance s)

/-- The refusal of a word the decoder gives no meaning (R109). A fetched word is never truncated, so that name of the
decoder's is the word's too. -/
def refuseWord (w : Word) : DecodeReject → Result
  | .truncated => .refused (.undefinedLowNibble w)
  | .nibble59 u => .refused (.undefinedLowNibble u)

/-! ## The random byte -/

/-- `draw_rand()` (R15): the byte on `rand_in` where the host has supplied one to this step (R55), else the next free
byte; and the state with that free byte counted. -/
def drawRand (s : State) : Byte × State :=
  match s.randIn with
  | some b => (b, s)
  | none => (Config.freeByte s.draws, { s with draws := s.draws + 1 })

end Sys2Proof.Machine
end

