-- ==== Sys2Proof/Machine/Flags.lean ====
section
/-! DEFINITION. The flag computations: VF is the only flag (spec/10_state.md R32, R49; spec/42_alu.md R181, R185 to
R192). -/

namespace Sys2Proof.Machine

/-- VF's index (R12). -/
def vf : Nibble := 0xF

/-- A flag as the byte VF holds. -/
def flagByte (cond : Bool) : Byte := if cond then 1 else 0

/-- Carry of an exact sum: 1 iff it is above 255 (R188). -/
def carryFlag (a b : Byte) : Byte := flagByte (decide (255 < a.toNat + b.toNat))

/-- No borrow of `a - b`: 1 iff a ≥ b (R189, R191). -/
def noBorrowFlag (a b : Byte) : Byte := flagByte (decide (b.toNat ≤ a.toNat))

/-- Bit 0, the bit a right shift drops (R190). -/
def lowBitFlag (a : Byte) : Byte := flagByte (a.getLsbD 0)

/-- Bit 7, the bit a left shift drops (R192). -/
def highBitFlag (a : Byte) : Byte := flagByte (a.getLsbD 7)

/-- Writes the result to Vx and the flag to VF in the order FLAG_ORDER gives; the order shows only when x = F (R181). -/
def writeResultFlag (x : Nibble) (res f : Byte) (s : State) : State :=
  match s.cfg.flagOrder with
  | .flagLast => (s.setReg x res).setReg vf f
  | .resultLast => (s.setReg vf f).setReg x res

end Sys2Proof.Machine
end

