-- ==== Sys2Proof/Machine/Operands.lean ====
section
/-! DEFINITION. The operand forms: immediates, I-relative memory with its bound check, the key index guard, the skip
(spec/30_encoding.md R102, R103; spec/43_index_memory.md R220; spec/20_memory.md R73, R74; spec/45_timers_keys.md R270). -/

namespace Sys2Proof.Machine

/-- `zext_16(nnn)` (R102). -/
def addrWord (nnn : Addr12) : Word := nnn.setWidth 16

/-- `zext_16(V[0])` or any byte widened to 16 bits (R11). -/
def byteWord (b : Byte) : Word := b.setWidth 16

/-- The I-relative effective address `I + k`, exact, with no wrap (R220). -/
def effAddr (s : State) (k : Nat) : Nat := s.i.toNat + k

/-- The bound check of an instruction that touches `I .. I + count - 1`: over the whole range before any write; no byte
touched, no bound (R73, R74). -/
def rangeInBounds (s : State) (count : Nat) : Bool := decide (count = 0 ∨ effAddr s (count - 1) ≤ 0xFFF)

/-- The bytes at `I .. I + count - 1` (R220). -/
def readBlock (s : State) (count : Nat) : List Byte := s.mem.readBytes (effAddr s 0) count

/-- Writes bytes at I, I + 1, ... in that order (R220). -/
def writeBlock (s : State) (bytes : List Byte) : State := { s with mem := s.mem.writeBytes (effAddr s 0) bytes }

/-- V0..Vx, lowest index first (R103). -/
def regBlock (s : State) (x : Nibble) : List Byte := s.v.toList.take (x.toNat + 1)

/-- `V[k] <- bytes[k]` for every index k of the list below 16; the other registers keep their values (R226). -/
def loadRegs (s : State) (bytes : List Byte) : State :=
  { s with v := Vector.ofFn fun k : Fin 16 => bytes.getD k.val s.v[k.val] }

/-- `keys[v]`, where the guard "when Vx ≤ 0xF" holds (R270). -/
def keyFlag (s : State) (v : Byte) : Option Bool :=
  if h : v.toNat < 16 then some s.keys[v.toNat] else none

/-- The least pressed key (R274). -/
def lowestKey (s : State) : Option Nat := s.keys.toList.findIdx? id

/-- `PC <- PC + 2` when a skip's condition holds, nothing else (R35, R115, R150). -/
def skipIf (cond : Bool) (s : State) : State := if cond then s.setPc (s.pc + 2) else s

end Sys2Proof.Machine
end

