-- ==== Sys2Proof/Machine/Alu.lean ====
section
/-! DEFINITION. Register loads and arithmetic (spec/42_alu.md). Byte arithmetic is modulo 256 (R180); operands are read
before any write (spec/00_scope.md R16). -/

namespace Sys2Proof.Machine

/-- R182. -/
def execLdVxNn (x : Nibble) (nn : Byte) (s : State) : Result := .next (s.setReg x nn)

/-- R183: no flag. -/
def execAddVxNn (x : Nibble) (nn : Byte) (s : State) : Result := .next (s.setReg x (s.reg x + nn))

/-- R184. -/
def execLdVxVy (x y : Nibble) (s : State) : Result := .next (s.setReg x (s.reg y))

/-- R185: VF forced to 0. -/
def execOrVxVy (x y : Nibble) (s : State) : Result := .next (writeResultFlag x (s.reg x ||| s.reg y) 0 s)

/-- R186: VF forced to 0. -/
def execAndVxVy (x y : Nibble) (s : State) : Result := .next (writeResultFlag x (s.reg x &&& s.reg y) 0 s)

/-- R187: VF forced to 0. -/
def execXorVxVy (x y : Nibble) (s : State) : Result := .next (writeResultFlag x (s.reg x ^^^ s.reg y) 0 s)

/-- R188. -/
def execAddVxVy (x y : Nibble) (s : State) : Result :=
  .next (writeResultFlag x (s.reg x + s.reg y) (carryFlag (s.reg x) (s.reg y)) s)

/-- R189. -/
def execSubVxVy (x y : Nibble) (s : State) : Result :=
  .next (writeResultFlag x (s.reg x - s.reg y) (noBorrowFlag (s.reg x) (s.reg y)) s)

/-- R190: y is encoded and not read. -/
def execShrVx (x _y : Nibble) (s : State) : Result :=
  .next (writeResultFlag x (s.reg x >>> 1) (lowBitFlag (s.reg x)) s)

/-- R191. -/
def execSubnVxVy (x y : Nibble) (s : State) : Result :=
  .next (writeResultFlag x (s.reg y - s.reg x) (noBorrowFlag (s.reg y) (s.reg x)) s)

/-- R192: y is encoded and not read. -/
def execShlVx (x _y : Nibble) (s : State) : Result :=
  .next (writeResultFlag x (s.reg x <<< 1) (highBitFlag (s.reg x)) s)

/-- R193: the random byte is a free value (log 8). -/
def execRnd (x : Nibble) (nn : Byte) (s : State) : Result :=
  .next ((drawRand s).2.setReg x ((drawRand s).1 &&& nn))

end Sys2Proof.Machine
end

