-- ==== Sys2Proof/Machine/Control.lean ====
section
/-! DEFINITION. Control transfer (spec/41_control_flow.md). Every meaning runs as phase E: PC already holds the address
of the instruction + 2. -/

namespace Sys2Proof.Machine

/-- `stack[k] <- a`. -/
def State.setSlot (s : State) (k : Fin 16) (a : Word) : State := { s with stack := s.stack.set k.val a }

/-- R151. -/
def execRet (s : State) : Result :=
  if h : s.sp.val = 0 then raiseFault .stackUnderflow s
  else .next { s with sp := ⟨s.sp.val - 1, by omega⟩, pc := s.stack[s.sp.val - 1] }

/-- R152. -/
def execJp (nnn : Addr12) (s : State) : Result := .next (s.setPc (addrWord nnn))

/-- R153. -/
def execCall (nnn : Addr12) (s : State) : Result :=
  if h : s.sp.val = 16 then raiseFault .stackOverflow s
  else .next { s.setSlot ⟨s.sp.val, by omega⟩ s.pc with sp := ⟨s.sp.val + 1, by omega⟩, pc := addrWord nnn }

/-- R154. -/
def execSeVxNn (x : Nibble) (nn : Byte) (s : State) : Result := .next (skipIf (s.reg x == nn) s)

/-- R155. -/
def execSneVxNn (x : Nibble) (nn : Byte) (s : State) : Result := .next (skipIf (s.reg x != nn) s)

/-- R156. -/
def execSeVxVy (x y : Nibble) (s : State) : Result := .next (skipIf (s.reg x == s.reg y) s)

/-- R157. -/
def execSneVxVy (x y : Nibble) (s : State) : Result := .next (skipIf (s.reg x != s.reg y) s)

/-- R158: the exact sum, at most 0x10FE, is not masked. -/
def execJpV0Nnn (nnn : Addr12) (s : State) : Result := .next (s.setPc (addrWord nnn + byteWord (s.reg 0)))

end Sys2Proof.Machine
end

