-- ==== Sys2Proof/Machine/Display.lean ====
section
/-! DEFINITION. The display (spec/44_display.md). -/

namespace Sys2Proof.Machine

/-- `FB(c, r)` (R12, R250). -/
def pixel (fb : Framebuffer) (c : Fin 64) (r : Fin 32) : Bool := fb[r.val][c.val]

/-- `FB(c, r) <- FB(c, r) XOR 1` (R253). -/
def flipPixel (fb : Framebuffer) (c : Fin 64) (r : Fin 32) : Framebuffer :=
  fb.set r.val (fb[r.val].set c.val (!pixel fb c r))

/-- Pixel `c` of a sprite byte: bit 7 is column 0 (R251). -/
def spriteBit (b : Byte) (c : Nat) : Bool := b.getLsbD (7 - c)

/-- Column `c` modulo 64 (R253). -/
def wrapCol (c : Nat) : Fin 64 := Fin.ofNat 64 c

/-- Row `r` modulo 32 (R253). -/
def wrapRow (r : Nat) : Fin 32 := Fin.ofNat 32 r

/-- One sprite bit: where it is set, the collision flag gathers the pixel it falls on, and that pixel flips (R253). The
pair is the framebuffer and the collision flag so far. -/
def drawBit (X : Nat) (py : Fin 32) (b : Byte) (p : Framebuffer × Bool) (c : Nat) : Framebuffer × Bool :=
  if spriteBit b c then (flipPixel p.1 (wrapCol (X + c)) py, p.2 || pixel p.1 (wrapCol (X + c)) py) else p

/-- One sprite byte, columns 0 to 7 (R253). -/
def drawRow (X : Nat) (py : Fin 32) (b : Byte) (p : Framebuffer × Bool) : Framebuffer × Bool :=
  (List.range 8).foldl (drawBit X py b) p

/-- The sprite's bytes, one row each, downward from row `Y` with wrap-around (R253). -/
def drawRows (X : Nat) : Nat → List Byte → Framebuffer × Bool → Framebuffer × Bool
  | _, [], p => p
  | Y, b :: bs, p => drawRows X (Y + 1) bs (drawRow X (wrapRow Y) b p)

/-- The column a draw starts at: Vx mod 64 (R253). -/
def drawX (s : State) (x : Nibble) : Nat := (s.reg x).toNat % 64

/-- The row a draw starts at: Vy mod 32 (R253). -/
def drawY (s : State) (y : Nibble) : Nat := (s.reg y).toNat % 32

/-- R252. -/
def execCls (s : State) : Result := .next { s with fb := Framebuffer.blank, redraw := true }

/-- R253: coordinates are read before VF is written; n = 0 reads no byte and checks no bound. -/
def execDrw (x y n : Nibble) (s : State) : Result :=
  if rangeInBounds s n.toNat then
    let p := drawRows (drawX s x) (drawY s y) (readBlock s n.toNat) (s.fb, false)
    .next { s.setReg vf (flagByte p.2) with fb := p.1, redraw := true }
  else raiseFault .memoryOutOfBounds s

end Sys2Proof.Machine
end

