-- ==== Sys2Proof/Machine/IndexMem.lean ====
section
/-! DEFINITION. The index register and the memory transfers (spec/43_index_memory.md). No access changes I (R220). -/

namespace Sys2Proof.Machine

/-- R221. -/
def execLdINnn (nnn : Addr12) (s : State) : Result := .next (s.setI (addrWord nnn))

/-- R222: the sum is exact; I_ADD_OVERFLOW decides a sum above 0xFFFF; VF is not written. -/
def execAddIVx (x : Nibble) (s : State) : Result :=
  if s.cfg.iAddOverflow = .fault ∧ 0xFFFF < s.i.toNat + (s.reg x).toNat then raiseFault .indexOverflow s
  else .next (s.setI (s.i + byteWord (s.reg x)))

/-- R223: a value above 15 is a no-op. -/
def execLdFVx (x : Nibble) (s : State) : Result :=
  if (s.reg x).toNat < 16 then .next (s.setI (byteWord (s.reg x) * 5)) else .next s

/-- The three decimal digits of a byte, hundreds first (R224). -/
def bcdDigits (v : Byte) : List Byte := [v / 100, v / 10 % 10, v % 10]

/-- R224. -/
def execLdBVx (x : Nibble) (s : State) : Result :=
  if rangeInBounds s 3 then .next (writeBlock s (bcdDigits (s.reg x))) else raiseFault .memoryOutOfBounds s

/-- R225. -/
def execLdMemVx (x : Nibble) (s : State) : Result :=
  if rangeInBounds s (x.toNat + 1) then .next (writeBlock s (regBlock s x)) else raiseFault .memoryOutOfBounds s

/-- R226. -/
def execLdVxMem (x : Nibble) (s : State) : Result :=
  if rangeInBounds s (x.toNat + 1) then .next (loadRegs s (readBlock s (x.toNat + 1)))
  else raiseFault .memoryOutOfBounds s

end Sys2Proof.Machine
end

