-- ==== Sys2Proof/Machine/KeysTimers.lean ====
section
/-! DEFINITION. Keys and timers (spec/45_timers_keys.md). DT is the value after this step's countdown. -/

namespace Sys2Proof.Machine

/-- R271: an index above 0xF never skips (R270). -/
def execSkp (x : Nibble) (s : State) : Result := .next (skipIf (keyFlag s (s.reg x) == some true) s)

/-- R272: an index above 0xF never skips (R270). -/
def execSknp (x : Nibble) (s : State) : Result := .next (skipIf (keyFlag s (s.reg x) == some false) s)

/-- R273. -/
def execLdVxDt (x : Nibble) (s : State) : Result := .next (s.setReg x s.dt)

/-- R274: with no key pressed PC goes back to the instruction itself. -/
def execLdVxK (x : Nibble) (s : State) : Result :=
  match lowestKey s with
  | some k => .next (s.setReg x (BitVec.ofNat 8 k))
  | none => .next (s.setPc (s.pc - 2))

/-- R275. -/
def execLdDtVx (x : Nibble) (s : State) : Result := .next { s with dt := s.reg x }

/-- R276. -/
def execLdStVx (x : Nibble) (s : State) : Result := .next { s with st := s.reg x }

end Sys2Proof.Machine
end

