-- ==== Sys2Proof/Machine/Nop.lean ====
section
/-! DEFINITION. The no-ops: nothing beyond the fetch advance and the tick (spec/40_cycle.md R136). -/

namespace Sys2Proof.Machine

/-- What every no-op does in phase E (R136). -/
def noEffect (s : State) : Result := .next s

/-- 0nnn other than 00E0 and 00EE (R112, R136). -/
def execNop0 (_w : Addr12) (s : State) : Result := noEffect s

/-- 5xyN, N not 0 (R112, R136). -/
def execNop5 (_w : Addr12) (s : State) : Result := noEffect s

/-- 8xyN of no sub-opcode (R112, R136). -/
def execNop8 (_w : Addr12) (s : State) : Result := noEffect s

/-- 9xyN, N not 0 (R112, R136). -/
def execNop9 (_w : Addr12) (s : State) : Result := noEffect s

/-- ExNN of no sub-opcode (R112, R136). -/
def execNopE (_w : Addr12) (s : State) : Result := noEffect s

/-- FxNN of no sub-opcode (R112, R136). -/
def execNopF (_w : Addr12) (s : State) : Result := noEffect s

end Sys2Proof.Machine
end

