-- ==== Sys2Proof/Machine/Step.lean ====
section
/-! DEFINITION. One step: halted check, fetch, tick, decode, execute, commit (spec/40_cycle.md R130). -/

namespace Sys2Proof.Machine

/-- One step (R130). In HALTED it returns the held fault and changes nothing (R137). A step that raises a fault answers
the next state whose only change is the fault register (R300): its result is that register (`resultOf`, R61). -/
def step (s : State) : Host.Outcome State Fault Refusal :=
  match s.fault with
  | some c => .fault c
  | none =>
    if fetchInBounds s then
      match decode s.cfg.decode59 (fetchWord s) with
      | .ok i => commit s (exec i (beforeExecute s))
      | .reject r => refuseWord (fetchWord s) r
    else raiseFault .fetchOutOfBounds s

/-- The state with an instruction word stored at PC and PC + 1, high byte first, where the next step fetches it (R76).
It stands for the load of a program (R356, log 17); nothing but those two bytes changes. A PC above 0xFFE has no two
bytes to store to. -/
def State.withFetchWord (s : State) (nbits w : Nat) : State :=
  let word : Word := BitVec.ofNat 16 (w % 2 ^ nbits)
  if fetchInBounds s then { s with mem := s.mem.writeBytes s.pc.toNat [hiByte word, loByte word] } else s

end Sys2Proof.Machine
end

