-- ==== Sys2Proof/Machine/HostPorts.lean ====
section
/-! DEFINITION. The block's ports and what the host may do between steps (spec/10_state.md R53 to R61;
spec/60_exceptions.md R340; spec/70_reset_and_hazards.md R350 to R357). -/

namespace Sys2Proof.Machine

/-- The result of a step (R56). -/
inductive StepResult where
  | ok
  | fault (c : Fault)
  /-- The word has no meaning under DECODE_5_9 = refuse (R133). -/
  | noMeaning
  deriving DecidableEq, Repr

/-- The result port of a step's outcome: the fault register of the next state, or the fault a step in HALTED returns
(R61, R137). -/
def resultOf : Result → StepResult
  | .next t =>
    match t.fault with
    | none => .ok
    | some c => .fault c
  | .fault c => .fault c
  | .refused _ => .noMeaning

/-- `PROGRAM_BASE` (R8, R356). -/
abbrev programBase : Nat := 0x200

/-- The largest image that fits below 0x1000 (R356). -/
abbrev programMax : Nat := 0xE00

/-- Font base (R8, R355). -/
abbrev fontBase : Nat := 0x000

/-- A machine before any load, with memory MEM0 (R353). -/
def State.powerOn (cfg : Config) (mem0 : Memory) : State := { State.reset with cfg := cfg, mem := mem0 }

/-- The `reset` command (R57, R350): every register at its reset value; memory is not written (R351), nor are the
parameters and the count of free bytes. `rand_in` holds no byte after it: the byte of a step that did not come (or
faulted) is no byte of a later step (R340; log 8). -/
def resetCommand (s : State) : State :=
  { State.reset with mem := s.mem, cfg := s.cfg, draws := s.draws }

/-- `load(a, b)` (R58): an address is 12 bits, so it never passes 0xFFF. -/
def loadByte (a : Addr12) (b : Byte) (s : State) : State := { s with mem := s.mem.write a.toNat b }

/-- `loadFontSprites` (R355): the 80 bytes of FONT at 0x000. -/
def loadFontSprites (s : State) : State := { s with mem := s.mem.writeBytes fontBase s.cfg.font.toList }

/-- `loadProgramROM` (R356): the image at 0x200; an image that does not fit is refused and loads nothing. -/
def loadProgramRom (image : List Byte) (s : State) : State :=
  if image.length ≤ programMax then { s with mem := s.mem.writeBytes programBase image } else s

/-- `key_in` (R54): all 16 flags at once. -/
def keyIn (keys : Vector Bool 16) (s : State) : State := { s with keys := keys }

/-- `rand_in` (R55): the byte of the coming step, in the place of any supplied before it. -/
def randomIn (b : Byte) (s : State) : State := { s with randIn := some b }

/-- `redraw_clear` (R59). -/
def redrawClear (s : State) : State := { s with redraw := false }

/-- `fb_read` (R59). -/
def fbRead (s : State) (c : Fin 64) (r : Fin 32) : Bool := pixel s.fb c r

/-- What `state_read` returns (R60). -/
structure StatePort where
  pc : Word
  i : Word
  sp : Fin 17
  v : Vector Byte 16
  dt : Byte
  st : Byte
  stack : Vector Word 16
  fault : Option Fault
  deriving DecidableEq, Repr

/-- `state_read`: without side effect, in RUN and in HALTED (R60). -/
def stateRead (s : State) : StatePort :=
  { pc := s.pc, i := s.i, sp := s.sp, v := s.v, dt := s.dt, st := s.st, stack := s.stack, fault := s.fault }

/-- The host's moves: it acts only between steps and only through these (R340). -/
inductive HostMove where
  | reset
  | load (a : Addr12) (b : Byte)
  | loadFont
  | loadProgram (image : List Byte)
  | keys (flags : Vector Bool 16)
  | random (b : Byte)
  | clearRedraw
  deriving DecidableEq, Repr

/-- What a move does to the state (R340). -/
def hostMove : HostMove → State → State
  | .reset, s => resetCommand s
  | .load a b, s => loadByte a b s
  | .loadFont, s => loadFontSprites s
  | .loadProgram image, s => loadProgramRom image s
  | .keys flags, s => keyIn flags s
  | .random b, s => randomIn b s
  | .clearRedraw, s => redrawClear s

/-- The boot order: reset, font load, program load (R354). -/
def boot (cfg : Config) (mem0 : Memory) (image : List Byte) : State :=
  loadProgramRom image (loadFontSprites (resetCommand (State.powerOn cfg mem0)))

end Sys2Proof.Machine
end

