-- ==== Sys2Proof/Safety.lean ====
section
/-! DEFINITION. What counts as a legal state and a safe run. -/

namespace Sys2Proof.Machine

/-- The invariant of the machine: memory is in its canonical form (so every entry is in 0x000..0xFFF, R70); PC is at
most 0x10FE and every stack slot at most 0x1000, the ranges of R36; TIMER_DIVISOR is at least 1 (R9). SP's range 0..16
(R40) is its type. -/
def LegalState (s : State) : Prop :=
  s.mem.wf = true ∧ s.pc.toNat ≤ 0x10FE ∧ (∀ k : Fin 16, s.stack[k.val].toNat ≤ 0x1000) ∧ 1 ≤ s.cfg.timerDivisor

/-- A state some machine with a legal divisor reaches: from power-on with any MEM0, by steps and host moves in any order
(R85, R340, R354). -/
inductive Reachable : State → Prop where
  | powerOn (cfg : Config) (mem0 : Memory) (hd : 1 ≤ cfg.timerDivisor) (hm : mem0.wf = true) :
      Reachable (State.powerOn cfg mem0)
  | step (s t : State) (hs : Reachable s) (h : step s = .next t) : Reachable t
  | host (m : HostMove) (s : State) (hs : Reachable s) : Reachable (hostMove m s)

/-- A run is safe for `n` steps if none of them ends in HALTED or has no meaning (R137, R139). -/
def SafeFor (n : Nat) (s : State) : Prop :=
  ∀ k, k ≤ n → ∃ t, Sys2Proof.core.run k s = .next t ∧ t.fault = none

end Sys2Proof.Machine
end

