-- ==== Sys2Proof/Certificates/Slice0/Obligations.lean ====
section
/-! DEFINITION. The statements for the provers. In each, `exec i s` is phase E: `s` is the state phases F and T left
(spec/40_cycle.md R134), so `s.pc` is the address of the instruction + 2; `step s` is a whole step. A frame is written
as `t = { s with f := t.f, ... }`: every component of `t` but the named ones is that of `s`, the whole memory among them. -/

open Sys2Proof Sys2Proof.Machine

namespace Sys2Proof.Claims

/-! ## The tables of the spec the statements name -/

/-- What 8xyN leaves in register r for a result and a flag: VF keeps the flag unless x = F and FLAG_ORDER is
result_last (R181). -/
def flagged (s : State) (x : Nibble) (res f : Byte) (r : Nibble) : Byte :=
  if r = vf ∧ (x ≠ vf ∨ s.cfg.flagOrder = .flagLast) then f else if r = x then res else s.reg r

/-- The registers an instruction writes: the column "writes V" of R33. -/
def writesReg : Instr → Nibble → Prop
  | .ldVxNn x _, r | .addVxNn x _, r | .ldVxVy x _, r | .rnd x _, r | .ldVxDt x, r | .ldVxK x, r => r = x
  | .orVxVy x _, r | .andVxVy x _, r | .xorVxVy x _, r | .addVxVy x _, r | .subVxVy x _, r | .shrVx x _, r
  | .subnVxVy x _, r | .shlVx x _, r => r = x ∨ r = vf
  | .drw _ _ _, r => r = vf
  | .ldVxMem x, r => r.toNat ≤ x.toNat
  | .ret, _ | .jp _, _ | .call _, _ | .seVxNn _ _, _ | .sneVxNn _ _, _ | .seVxVy _ _, _ | .sneVxVy _ _, _
  | .jpV0Nnn _, _ | .ldINnn _, _ | .addIVx _, _ | .ldFVx _, _ | .ldBVx _, _ | .ldMemVx _, _ | .cls, _ | .skp _, _
  | .sknp _, _ | .ldDtVx _, _ | .ldStVx _, _ | .nop0 _, _ | .nop5 _, _ | .nop8 _, _ | .nop9 _, _ | .nopE _, _
  | .nopF _, _ => False

/-- The fault an instruction raises, and when: the table of R301. -/
def faultOf (s : State) : Instr → Option Fault
  | .call _ => if s.sp.val = 16 then some .stackOverflow else none
  | .ret => if s.sp.val = 0 then some .stackUnderflow else none
  | .drw _ _ n => if 0 < n.toNat ∧ 0xFFF < s.i.toNat + n.toNat - 1 then some .memoryOutOfBounds else none
  | .ldBVx _ => if 0xFFF < s.i.toNat + 2 then some .memoryOutOfBounds else none
  | .ldMemVx x | .ldVxMem x => if 0xFFF < s.i.toNat + x.toNat then some .memoryOutOfBounds else none
  | .addIVx x =>
    if s.cfg.iAddOverflow = .fault ∧ 0xFFFF < s.i.toNat + (s.reg x).toNat then some .indexOverflow else none
  | .jp _ | .seVxNn _ _ | .sneVxNn _ _ | .seVxVy _ _ | .sneVxVy _ _ | .jpV0Nnn _ | .ldVxNn _ _ | .addVxNn _ _
  | .ldVxVy _ _ | .orVxVy _ _ | .andVxVy _ _ | .xorVxVy _ _ | .addVxVy _ _ | .subVxVy _ _ | .shrVx _ _
  | .subnVxVy _ _ | .shlVx _ _ | .rnd _ _ | .ldINnn _ | .ldFVx _ | .cls | .skp _ | .sknp _ | .ldVxDt _ | .ldVxK _
  | .ldDtVx _ | .ldStVx _ | .nop0 _ | .nop5 _ | .nop8 _ | .nop9 _ | .nopE _ | .nopF _ => none

/-- The six no-op constructors (R112). -/
def isNop : Instr → Bool
  | .nop0 _ | .nop5 _ | .nop8 _ | .nop9 _ | .nopE _ | .nopF _ => true
  | .ret | .jp _ | .call _ | .seVxNn _ _ | .sneVxNn _ _ | .seVxVy _ _ | .sneVxVy _ _ | .jpV0Nnn _ | .ldVxNn _ _
  | .addVxNn _ _ | .ldVxVy _ _ | .orVxVy _ _ | .andVxVy _ _ | .xorVxVy _ _ | .addVxVy _ _ | .subVxVy _ _
  | .shrVx _ _ | .subnVxVy _ _ | .shlVx _ _ | .rnd _ _ | .ldINnn _ | .addIVx _ | .ldFVx _ | .ldBVx _ | .ldMemVx _
  | .ldVxMem _ | .cls | .drw _ _ _ | .skp _ | .sknp _ | .ldVxDt _ | .ldVxK _ | .ldDtVx _ | .ldStVx _ => false

/-- A timer after phase T of a step (R321). -/
def counted (s : State) (timer : Byte) : Nat :=
  if (s.tick + 1) % s.cfg.timerDivisor = 0 then timer.toNat - 1 else timer.toNat

/-- Whether the sprite of Dxyn has a set bit for the framebuffer cell (c, r): the cell is dx columns right of
Vx mod 64 and dy rows below Vy mod 32, both with wrap-around, dx < 8 and dy < n, and bit 7 - dx of the byte at I + dy
is set (R251, R253). -/
def spriteCovers (s : State) (x y n : Nibble) (c : Fin 64) (r : Fin 32) : Bool :=
  let dx := (c.val + 64 - (s.reg x).toNat % 64) % 64
  let dy := (r.val + 32 - (s.reg y).toNat % 32) % 32
  decide (dx < 8) && decide (dy < n.toNat) && (s.readByte (s.i.toNat + dy)).getLsbD (7 - dx)

/-- A draw collides if a set sprite bit falls on a set pixel (R253). -/
def collides (s : State) (x y n : Nibble) : Prop :=
  ∃ c r, spriteCovers s x y n c r = true ∧ pixel s.fb c r = true

/-- Dxyn's sprite bytes exist: none for n = 0, else up to I + n - 1 (R253). -/
def spriteInBounds (s : State) (n : Nibble) : Prop := n = 0 ∨ s.i.toNat + n.toNat - 1 ≤ 0xFFF

/-- The step of `s` fetches and decodes `i`: RUN, PC at most 0xFFE (R130). -/
def runs (s : State) (i : Instr) : Prop :=
  s.fault = none ∧ s.pc.toNat ≤ 0xFFE ∧ decode s.cfg.decode59 (fetchWord s) = .ok i

end Sys2Proof.Claims

open Sys2Proof.Claims

/-! ## Encoding -/

/-- Words written out from the patterns of R108 and the vectors of 95_test_vectors.md. -/
def Obligations.WordsOfTheSpecDecode : Prop :=
  decode .strictNop 0x00E0 = .ok .cls ∧ decode .strictNop 0x00EE = .ok .ret ∧
  decode .strictNop 0x2A00 = .ok (.call 0xA00) ∧ decode .strictNop 0x3342 = .ok (.seVxNn 3 0x42) ∧
  decode .strictNop 0x8F14 = .ok (.addVxVy 0xF 1) ∧ decode .strictNop 0xD125 = .ok (.drw 1 2 5) ∧
  decode .strictNop 0xE4A1 = .ok (.sknp 4) ∧ decode .strictNop 0xF265 = .ok (.ldVxMem 2) ∧
  decode .strictNop 0x5121 = .ok (.nop5 0x121)

/-- No bit of an encoding is dropped: under strict_nop for every well-formed instruction; under the other values of
DECODE_5_9 for every one but the no-ops 5xyN and 9xyN, whose words those values give another reading (R108, R109,
R111). -/
def Obligations.DecodeOfEncodeIsTheInstruction : Prop :=
  ∀ i : Instr, i.wf = true →
    decode .strictNop (encode i) = .ok i ∧
    ((∀ w, i ≠ .nop5 w ∧ i ≠ .nop9 w) → ∀ d, decode d (encode i) = .ok i)

/-- Decoding is total under strict_nop and every word has one meaning (R110, R112). -/
def Obligations.EncodeOfDecodeIsTheWord : Prop :=
  ∀ w : Word, ∃ i, decode .strictNop w = .ok i ∧ i.wf = true ∧ encode i = w

/-- A word that selects a row of the opcode list decodes to an instruction of that row, under every DECODE_5_9; a word
that selects none decodes, under strict_nop, to a no-op that carries it (R108, R112). -/
def Obligations.DecodeSelectsTheTableRow : Prop :=
  (∀ d w row, row ∈ specificRows → row.selects w = true →
    ∃ i, decode d w = .ok i ∧ i.row = row ∧ isNop i = false ∧ encode i = w) ∧
  (∀ w, (∀ row ∈ specificRows, row.selects w = false) →
    ∃ i, decode .strictNop w = .ok i ∧ isNop i = true ∧ encode i = w)

/-- No word selects two rows of the opcode list (R108). -/
def Obligations.TableRowsAreDisjoint : Prop :=
  ∀ w : Word, ∀ p ∈ specificRows, ∀ q ∈ specificRows, p.selects w = true → q.selects w = true → p = q

/-- Families 8, E and F select on their low nibble or low byte, and every other value is a no-op (R106, R107). -/
def Obligations.FamilySubOpcodesSelect : Prop :=
  ∀ (d : Decode59) (x y n : Nibble) (nn : Byte),
    decode d (0x8#4 ++ x ++ y ++ 0x0#4) = .ok (.ldVxVy x y) ∧
    decode d (0x8#4 ++ x ++ y ++ 0x1#4) = .ok (.orVxVy x y) ∧
    decode d (0x8#4 ++ x ++ y ++ 0x2#4) = .ok (.andVxVy x y) ∧
    decode d (0x8#4 ++ x ++ y ++ 0x3#4) = .ok (.xorVxVy x y) ∧
    decode d (0x8#4 ++ x ++ y ++ 0x4#4) = .ok (.addVxVy x y) ∧
    decode d (0x8#4 ++ x ++ y ++ 0x5#4) = .ok (.subVxVy x y) ∧
    decode d (0x8#4 ++ x ++ y ++ 0x6#4) = .ok (.shrVx x y) ∧
    decode d (0x8#4 ++ x ++ y ++ 0x7#4) = .ok (.subnVxVy x y) ∧
    decode d (0x8#4 ++ x ++ y ++ 0xE#4) = .ok (.shlVx x y) ∧
    (n ∉ [0x0#4, 0x1#4, 0x2#4, 0x3#4, 0x4#4, 0x5#4, 0x6#4, 0x7#4, 0xE#4] →
      decode d (0x8#4 ++ x ++ y ++ n) = .ok (.nop8 (x ++ y ++ n))) ∧
    decode d (0xE#4 ++ x ++ 0x9E#8) = .ok (.skp x) ∧
    decode d (0xE#4 ++ x ++ 0xA1#8) = .ok (.sknp x) ∧
    (nn ∉ [0x9E#8, 0xA1#8] → decode d (0xE#4 ++ x ++ nn) = .ok (.nopE (x ++ nn))) ∧
    decode d (0xF#4 ++ x ++ 0x07#8) = .ok (.ldVxDt x) ∧
    decode d (0xF#4 ++ x ++ 0x0A#8) = .ok (.ldVxK x) ∧
    decode d (0xF#4 ++ x ++ 0x15#8) = .ok (.ldDtVx x) ∧
    decode d (0xF#4 ++ x ++ 0x18#8) = .ok (.ldStVx x) ∧
    decode d (0xF#4 ++ x ++ 0x1E#8) = .ok (.addIVx x) ∧
    decode d (0xF#4 ++ x ++ 0x29#8) = .ok (.ldFVx x) ∧
    decode d (0xF#4 ++ x ++ 0x33#8) = .ok (.ldBVx x) ∧
    decode d (0xF#4 ++ x ++ 0x55#8) = .ok (.ldMemVx x) ∧
    decode d (0xF#4 ++ x ++ 0x65#8) = .ok (.ldVxMem x) ∧
    (nn ∉ [0x07#8, 0x0A#8, 0x15#8, 0x18#8, 0x1E#8, 0x29#8, 0x33#8, 0x55#8, 0x65#8] →
      decode d (0xF#4 ++ x ++ nn) = .ok (.nopF (x ++ nn))) ∧
    ∀ (w : Addr12) (s : State), exec (.nop8 w) s = .next s ∧ exec (.nopE w) s = .next s ∧ exec (.nopF w) s = .next s

/-- The three readings of 5xyN and 9xyN with N not 0 (R109; the parameter is the spec's decision D9, log 4). A step
that fetches one under `refuse` has no meaning: a refusal, not a fault (R133). -/
def Obligations.LowNibbleParameterDecides : Prop :=
  ∀ x y n : Nibble, n ≠ 0 →
    decode .strictNop (0x5#4 ++ x ++ y ++ n) = .ok (.nop5 (x ++ y ++ n)) ∧
    decode .strictNop (0x9#4 ++ x ++ y ++ n) = .ok (.nop9 (x ++ y ++ n)) ∧
    decode .ignoreLowNibble (0x5#4 ++ x ++ y ++ n) = .ok (.seVxVy x y) ∧
    decode .ignoreLowNibble (0x9#4 ++ x ++ y ++ n) = .ok (.sneVxVy x y) ∧
    ∀ (s : State) (op : Nibble), (op = 0x5 ∨ op = 0x9) → s.fault = none → s.pc.toNat ≤ 0xFFE →
      s.cfg.decode59 = .refuse → fetchWord s = op ++ x ++ y ++ n →
      step s = .refused (.undefinedLowNibble (op ++ x ++ y ++ n))

/-! ## The step -/

/-- When the word at PC decodes to i, the step executes i at the state phases F and T leave, and commits (R130). -/
def Obligations.StepRunsTheDecodedInstruction : Prop :=
  ∀ s i, runs s i → step s = commit s (exec i (beforeExecute s))

/-- Phase F and T spelled out: PC + 2, tick + 1, both timers counted down when the new tick is a multiple of the
divisor, nothing else (R131, R132, R320, R321; the phase of the countdown is the spec's decision D13, log 6). -/
def Obligations.FetchAdvanceAndTickPhase : Prop :=
  ∀ s, (s.pc.toNat ≤ 0xFFE → (beforeExecute s).pc.toNat = s.pc.toNat + 2) ∧
    (beforeExecute s).tick = s.tick + 1 ∧
    (beforeExecute s).dt.toNat = counted s s.dt ∧ (beforeExecute s).st.toNat = counted s s.st ∧
    beforeExecute s = { s with pc := (beforeExecute s).pc, tick := (beforeExecute s).tick,
                               dt := (beforeExecute s).dt, st := (beforeExecute s).st }

/-- The fetched word is big-endian (R76). -/
def Obligations.FetchIsBigEndian : Prop :=
  ∀ s, (fetchWord s).toNat = (s.readByte s.pc.toNat).toNat * 256 + (s.readByte (s.pc.toNat + 1)).toNat

/-- A fetch at a PC above 0xFFE raises FetchOutOfBounds, and the step changes only the fault register (R77, R131; the
spec's decisions D2, D3, D22). -/
def Obligations.FetchPastMemoryFaults : Prop :=
  ∀ s : State, s.fault = none → 0xFFE < s.pc.toNat →
    step s = .next { s with fault := some .fetchOutOfBounds } ∧
    resultOf (step s) = .fault .fetchOutOfBounds

/-- In HALTED a step returns the held fault; no next state, so nothing changes; only the reset command clears the fault
register among the host's moves (R137; the spec's decision D23). -/
def Obligations.HaltedStepReturnsTheHeldFault : Prop :=
  ∀ (s : State) (c : Fault), s.fault = some c →
    step s = .fault c ∧ resultOf (step s) = .fault c ∧
    ∀ m, (hostMove m s).fault = if m = .reset then none else some c

/-- A fault is precise: a step that raises one has no other effect than the fault register, and its result is that
fault (R300; the spec's decision D3, log 9, log 10). -/
def Obligations.FaultingStepDiscardsEveryWrite : Prop :=
  ∀ (s t : State) (c : Fault), s.fault = none → step s = .next t → t.fault = some c →
    t = { s with fault := some c } ∧ resultOf (step s) = .fault c

/-- A step raises exactly the fault of R301's table, fetch before instruction, and no other (R301, R309). -/
def Obligations.StepFaultsExactlyAsTheTable : Prop :=
  (∀ s t, s.fault = none → 0xFFE < s.pc.toNat → step s = .next t → t.fault = some .fetchOutOfBounds) ∧
  (∀ s i, runs s i → ∃ t, step s = .next t ∧ t.fault = faultOf s i)

/-- Every step that commits counts one tick and counts the timers down at a multiple of the divisor, whatever the
instruction, but for the timer Fx15 or Fx18 writes (R132, R320, R321, R135; D13, log 6). -/
def Obligations.EveryStepTicksAndCountsDown : Prop :=
  ∀ s t i, runs s i → step s = .next t → t.fault = none →
    t.tick = s.tick + 1 ∧
    ((∀ x, i ≠ .ldDtVx x) → t.dt.toNat = counted s s.dt) ∧
    ((∀ x, i ≠ .ldStVx x) → t.st.toNat = counted s s.st)

/-- Fx07 reads DT already counted down in its own step; Fx15 and Fx18 write after the countdown (R135). -/
def Obligations.TimerInstructionsSeeTheCountdown : Prop :=
  ∀ (s : State) (x : Nibble),
    (runs s (.ldVxDt x) → ∃ t, step s = .next t ∧ (t.reg x).toNat = counted s s.dt) ∧
    (runs s (.ldDtVx x) → ∃ t, step s = .next t ∧ t.dt = s.reg x) ∧
    (runs s (.ldStVx x) → ∃ t, step s = .next t ∧ t.st = s.reg x)

/-- A no-op does nothing beyond phases F and T (R136). A step's own random byte is no state: it is gone after every step
that commits (R55, R130; the model's choice, log 8). -/
def Obligations.NopsOnlyAdvanceAndTick : Prop :=
  (∀ (w : Addr12) (s : State), exec (.nop0 w) s = .next s ∧ exec (.nop5 w) s = .next s ∧ exec (.nop8 w) s = .next s ∧
    exec (.nop9 w) s = .next s ∧ exec (.nopE w) s = .next s ∧ exec (.nopF w) s = .next s) ∧
  (∀ s i, runs s i → isNop i = true → step s = .next { beforeExecute s with randIn := none })

/-! ## Which instruction may write what -/

/-- A register the table of R33 does not list for the instruction keeps its value, VF as a flag among them (R32,
R33). -/
def Obligations.OnlyListedRegistersAreWritten : Prop :=
  ∀ i s t, exec i s = .next t → ∀ r, ¬ writesReg i r → t.reg r = s.reg r

/-- No instruction but Fx33 and Fx55 writes memory (R75). -/
def Obligations.OnlyStoresWriteMemory : Prop :=
  ∀ i s t, exec i s = .next t → (∀ x, i ≠ .ldBVx x ∧ i ≠ .ldMemVx x) →
    t.mem = s.mem ∧ ∀ a, t.readByte a = s.readByte a

/-- I is written only by Annn, Fx1E and Fx29 (R220). -/
def Obligations.OnlyThreeInstructionsWriteI : Prop :=
  ∀ i s t, exec i s = .next t → (∀ nnn x, i ≠ .ldINnn nnn ∧ i ≠ .addIVx x ∧ i ≠ .ldFVx x) → t.i = s.i

/-- The stack is written only by 2nnn, and SP only by 2nnn and 00EE (R39, R40). -/
def Obligations.OnlyCallAndReturnMoveTheStack : Prop :=
  ∀ i s t, exec i s = .next t →
    ((∀ nnn, i ≠ .call nnn) → t.stack = s.stack) ∧
    ((∀ nnn, i ≠ .call nnn ∧ i ≠ .ret) → t.sp = s.sp)

/-- The framebuffer is written only by 00E0 and Dxyn; where either completes it sets redraw, and no instruction clears
redraw (R44, R45, R255; setting it without a pixel change is the spec's decision D19). -/
def Obligations.OnlyClsAndDrwTouchTheDisplay : Prop :=
  ∀ i s t, exec i s = .next t →
    ((∀ x y n, i ≠ .cls ∧ i ≠ .drw x y n) → t.fb = s.fb ∧ t.redraw = s.redraw) ∧
    (s.redraw = true → t.redraw = true) ∧
    (∀ x y n, (i = .cls ∨ i = .drw x y n) → s.fault = none → t.fault = none → t.redraw = true)

/-- PC after an instruction other than a jump, call, return, skip or key wait is the fetch advance alone (R35). -/
def Obligations.OtherInstructionsLeaveTheFetchAdvance : Prop :=
  ∀ i s t, exec i s = .next t →
    (∀ nnn x y nn, i ≠ .jp nnn ∧ i ≠ .call nnn ∧ i ≠ .ret ∧ i ≠ .jpV0Nnn nnn ∧ i ≠ .seVxNn x nn ∧ i ≠ .sneVxNn x nn ∧
      i ≠ .seVxVy x y ∧ i ≠ .sneVxVy x y ∧ i ≠ .skp x ∧ i ≠ .sknp x ∧ i ≠ .ldVxK x) → t.pc = s.pc

/-- A step only reads the key flags, and changes no parameter of the machine (R46, R54; the parameters as a field of
the state are the model's choice, log 2). -/
def Obligations.StepLeavesKeysAndParameters : Prop :=
  ∀ s t, step s = .next t → t.keys = s.keys ∧ t.cfg = s.cfg

/-! ## Invariant, reset, host -/

/-- Canonical memory within 0x000..0xFFF, PC and stack slots in the ranges of R36, a legal divisor: kept by every
step. -/
def Obligations.StepKeepsTheInvariant : Prop :=
  ∀ s t, LegalState s → step s = .next t → LegalState t

/-- The state after reset meets the invariant. -/
def Obligations.ResetStateMeetsTheInvariant : Prop := LegalState State.reset

/-- Every host move keeps the invariant (R340). -/
def Obligations.HostMovesKeepTheInvariant : Prop :=
  ∀ m s, LegalState s → LegalState (hostMove m s)

/-- So every state reached from power-on, with any MEM0, by steps and host moves in any order meets it, and its PC and
its stack slots never leave the ranges of R36. -/
def Obligations.ReachableStatesMeetTheInvariant : Prop :=
  ∀ s, Reachable s → LegalState s

/-- The reset command: the values of R350 whatever the state was, and memory is not written (R351; the stack, tick,
redraw, key and fault values and R351 are the spec's decision D15; leaving the parameters and the count of free bytes,
and an empty rand_in, are the model's choice, log 2 and log 8). -/
def Obligations.ResetCommandSetsTheResetValues : Prop :=
  ∀ s, let t := hostMove .reset s
    t.pc = 0x200 ∧ t.sp = 0 ∧ t.i = 0 ∧ (∀ r, t.reg r = 0) ∧ t.dt = 0 ∧ t.st = 0 ∧
    (∀ c r, pixel t.fb c r = false) ∧ (∀ k : Fin 16, t.stack[k.val] = 0 ∧ t.keys[k.val] = false) ∧
    t.tick = 0 ∧ t.redraw = false ∧ t.fault = none ∧
    (∀ a, t.readByte a = s.readByte a) ∧ t.cfg = s.cfg ∧ t.randIn = none ∧ t.draws = s.draws

/-- The program load copies the image to 0x200 onward and writes nothing else; an image above 0xE00 bytes loads nothing
(R356; the refusal is the spec's decision D21). -/
def Obligations.ProgramLoadCopiesTheImage : Prop :=
  ∀ (image : List Byte) (s : State), let t := hostMove (.loadProgram image) s
    t = { s with mem := t.mem } ∧
    (0xE00 < image.length → t = s) ∧
    (image.length ≤ 0xE00 → ∀ a, t.readByte a =
      if 0x200 ≤ a ∧ a < 0x200 + image.length then image.getD (a - 0x200) 0 else s.readByte a)

/-- The font load puts byte j of glyph d at d*5 + j and writes nothing else; Fx29 then points at the glyph (R355, R223;
base 0x000 is the spec's inference). -/
def Obligations.FontLoadPlacesTheGlyphs : Prop :=
  ∀ s, let t := hostMove .loadFont s
    t = { s with mem := t.mem } ∧
    (∀ (d : Fin 16) (j : Fin 5), t.readByte (d.val * 5 + j.val) = s.cfg.font[d.val * 5 + j.val]) ∧
    (∀ a, 0x50 ≤ a → t.readByte a = s.readByte a) ∧
    (∀ x : Nibble, (t.reg x).toNat < 16 → ∃ u, exec (.ldFVx x) t = .next u ∧
      ∀ j : Fin 5, u.readByte (u.i.toNat + j.val) = s.cfg.font.toList.getD ((t.reg x).toNat * 5 + j.val) 0)

/-! ## Control flow -/

/-- 1nnn (R152). -/
def Obligations.JumpSetsPc : Prop :=
  ∀ nnn s, ∃ t, exec (.jp nnn) s = .next t ∧ t.pc.toNat = nnn.toNat ∧ t = { s with pc := t.pc }

/-- 2nnn: with a free slot it pushes the address after the call; with none it raises StackOverflow (R153, R302;
that the fault register is all a fault changes is the spec's decision D3, and that `exec` answers it as a next state is
log 9). -/
def Obligations.CallPushesTheReturnAddress : Prop :=
  ∀ nnn s,
    (s.sp.val < 16 → ∃ t, exec (.call nnn) s = .next t ∧
      t.sp.val = s.sp.val + 1 ∧ t.pc.toNat = nnn.toNat ∧
      (∀ k : Fin 16, t.stack[k.val] = if k.val = s.sp.val then s.pc else s.stack[k.val]) ∧
      t = { s with stack := t.stack, sp := t.sp, pc := t.pc }) ∧
    (s.sp.val = 16 → exec (.call nnn) s = .next { s with fault := some .stackOverflow })

/-- 00EE: with a used slot it pops the return address and leaves the slot; with none it raises StackUnderflow (R151,
R303; that the fault register is all a fault changes is the spec's decision D3, and that `exec` answers it as a next state
is log 9). -/
def Obligations.ReturnPopsTheReturnAddress : Prop :=
  ∀ s : State,
    (∀ k : Fin 16, s.sp.val = k.val + 1 → ∃ t, exec .ret s = .next t ∧
      t.sp.val = k.val ∧ t.pc = s.stack[k.val] ∧ t = { s with sp := t.sp, pc := t.pc }) ∧
    (s.sp.val = 0 → exec .ret s = .next { s with fault := some .stackUnderflow })

/-- 00EE completes in every state with a used slot, whatever the slot holds (R151). -/
def Obligations.ReturnCompletes : Prop :=
  ∀ s : State, 0 < s.sp.val → ∃ (t : State) (k : Fin 16), exec .ret s = .next t ∧
    k.val + 1 = s.sp.val ∧ t.sp.val = k.val ∧ t.pc = s.stack[k.val] ∧ t.fault = s.fault ∧ t.stack = s.stack ∧
    t = { s with sp := t.sp, pc := t.pc }

/-- A call and then a return come back to the pushed address with SP as it was (R151, R153). -/
def Obligations.ReturnUndoesCall : Prop :=
  ∀ nnn s, s.sp.val < 16 → ∃ t u, exec (.call nnn) s = .next t ∧ exec .ret t = .next u ∧
    u.pc = s.pc ∧ u.sp = s.sp ∧ u = { s with stack := u.stack }

/-- The four compare skips (R154 to R157). -/
def Obligations.CompareSkips : Prop :=
  ∀ (x y : Nibble) (nn : Byte) (s : State),
    exec (.seVxNn x nn) s = .next { s with pc := if (s.reg x).toNat = nn.toNat then s.pc + 2 else s.pc } ∧
    exec (.sneVxNn x nn) s = .next { s with pc := if (s.reg x).toNat = nn.toNat then s.pc else s.pc + 2 } ∧
    exec (.seVxVy x y) s = .next { s with pc := if (s.reg x).toNat = (s.reg y).toNat then s.pc + 2 else s.pc } ∧
    exec (.sneVxVy x y) s = .next { s with pc := if (s.reg x).toNat = (s.reg y).toNat then s.pc else s.pc + 2 }

/-- Bnnn: the exact sum with V0, at most 0x10FE, not masked (R158; not masking is the spec's decision D2). -/
def Obligations.OffsetJumpAddsV0 : Prop :=
  ∀ nnn s, ∃ t, exec (.jpV0Nnn nnn) s = .next t ∧
    t.pc.toNat = nnn.toNat + (s.reg 0).toNat ∧ t.pc.toNat ≤ 0x10FE ∧ t = { s with pc := t.pc }

/-! ## Loads and arithmetic -/

/-- 6xnn, 7xnn and 8xy0: x = F is a plain register (R182 to R184). -/
def Obligations.RegisterLoadsAndAddImmediate : Prop :=
  ∀ (x y : Nibble) (nn : Byte) (s : State),
    (∃ t, exec (.ldVxNn x nn) s = .next t ∧ t = { s with v := t.v } ∧
      ∀ r, t.reg r = if r = x then nn else s.reg r) ∧
    (∃ t, exec (.addVxNn x nn) s = .next t ∧ t = { s with v := t.v } ∧
      ∀ r, (t.reg r).toNat = if r = x then ((s.reg x).toNat + nn.toNat) % 256 else (s.reg r).toNat) ∧
    (∃ t, exec (.ldVxVy x y) s = .next t ∧ t = { s with v := t.v } ∧
      ∀ r, t.reg r = if r = x then s.reg y else s.reg r)

/-- 8xy1, 8xy2, 8xy3: the bitwise result, VF forced to 0, for every x and y, F among them (R185 to R187; what remains in
VF when x = F is FLAG_ORDER's, the spec's decision D7, log 3). -/
def Obligations.LogicForcesTheFlagToZero : Prop :=
  ∀ (x y : Nibble) (s : State),
    (∃ t, exec (.orVxVy x y) s = .next t ∧ t = { s with v := t.v } ∧
      ∃ res : Byte, (∀ k, res.getLsbD k = ((s.reg x).getLsbD k || (s.reg y).getLsbD k)) ∧
        ∀ r, t.reg r = flagged s x res 0 r) ∧
    (∃ t, exec (.andVxVy x y) s = .next t ∧ t = { s with v := t.v } ∧
      ∃ res : Byte, (∀ k, res.getLsbD k = ((s.reg x).getLsbD k && (s.reg y).getLsbD k)) ∧
        ∀ r, t.reg r = flagged s x res 0 r) ∧
    (∃ t, exec (.xorVxVy x y) s = .next t ∧ t = { s with v := t.v } ∧
      ∃ res : Byte, (∀ k, res.getLsbD k = ((s.reg x).getLsbD k ^^ (s.reg y).getLsbD k)) ∧
        ∀ r, t.reg r = flagged s x res 0 r)

/-- 8xy4, 8xy5, 8xy7: the sum or difference modulo 256, VF the carry or the no-borrow, for every x and y (R188, R189,
R191; x = F: D7, log 3). -/
def Obligations.AddAndSubtractSetTheFlag : Prop :=
  ∀ (x y : Nibble) (s : State),
    (∃ t, exec (.addVxVy x y) s = .next t ∧ t = { s with v := t.v } ∧
      ∃ res : Byte, res.toNat = ((s.reg x).toNat + (s.reg y).toNat) % 256 ∧
        ∀ r, t.reg r = flagged s x res (if 255 < (s.reg x).toNat + (s.reg y).toNat then 1 else 0) r) ∧
    (∃ t, exec (.subVxVy x y) s = .next t ∧ t = { s with v := t.v } ∧
      ∃ res : Byte, res.toNat = ((s.reg x).toNat + 256 - (s.reg y).toNat) % 256 ∧
        ∀ r, t.reg r = flagged s x res (if (s.reg y).toNat ≤ (s.reg x).toNat then 1 else 0) r) ∧
    (∃ t, exec (.subnVxVy x y) s = .next t ∧ t = { s with v := t.v } ∧
      ∃ res : Byte, res.toNat = ((s.reg y).toNat + 256 - (s.reg x).toNat) % 256 ∧
        ∀ r, t.reg r = flagged s x res (if (s.reg x).toNat ≤ (s.reg y).toNat then 1 else 0) r)

/-- 8xy6 and 8xyE: Vx shifted by one, VF the bit shifted out; y has no effect (R190, R192; x = F: D7, log 3). -/
def Obligations.ShiftsMoveTheLostBitToTheFlag : Prop :=
  ∀ (x y : Nibble) (s : State),
    (∃ t, exec (.shrVx x y) s = .next t ∧ t = { s with v := t.v } ∧
      ∃ res f : Byte, res.toNat = (s.reg x).toNat / 2 ∧ f.toNat = (s.reg x).toNat % 2 ∧
        ∀ r, t.reg r = flagged s x res f r) ∧
    (∃ t, exec (.shlVx x y) s = .next t ∧ t = { s with v := t.v } ∧
      ∃ res f : Byte, res.toNat = (s.reg x).toNat * 2 % 256 ∧ f.toNat = (s.reg x).toNat / 128 ∧
        ∀ r, t.reg r = flagged s x res f r)

/-- Cxnn: Vx is some byte AND nn: the byte the host supplied to this step on rand_in, else a free byte, about which
nothing is known (R193; D17; the free byte where the host supplied none is the model's choice, log 8). -/
def Obligations.RandomIsAByteAndTheImmediate : Prop :=
  ∀ (x : Nibble) (nn : Byte) (s : State), ∃ (b : Byte) (t : State), exec (.rnd x nn) s = .next t ∧
    (∀ r, t.reg r = if r = x then b &&& nn else s.reg r) ∧
    (∀ b', s.randIn = some b' → b = b' ∧ t.draws = s.draws) ∧
    (s.randIn = none → b = Config.freeByte s.draws ∧ t.draws = s.draws + 1) ∧
    t = { s with v := t.v, draws := t.draws }

/-- The byte the host supplies is the byte of the coming step and of no other: it replaces any supplied before it, a
Cxnn step draws exactly it, and after a step that commits, whatever its instruction, and after a reset, none is left
(R55, R130, R340; D17; that an unsupplied byte is free and that a fault leaves the port to reset are the model's choice,
log 8). -/
def Obligations.RandomByteIsOfOneStep : Prop :=
  (∀ b s, hostMove (.random b) s = { s with randIn := some b }) ∧
  (∀ s x nn b, runs s (.rnd x nn) → ∃ t, step (hostMove (.random b) s) = .next t ∧ t.reg x = b &&& nn ∧
    t.randIn = none ∧ t.draws = s.draws ∧ ∀ r, r ≠ x → t.reg r = s.reg r) ∧
  (∀ s t, step s = .next t → t.fault = none → t.randIn = none) ∧
  (∀ s, (hostMove .reset s).randIn = none)

/-- No instruction but Cxnn reads rand_in: with another byte there, or none, it does the same; and none but Cxnn takes a
free byte (R332, R55, R15; the free byte where none was supplied and the counter `draws` are the model's choice, log 8). -/
def Obligations.OnlyRndReadsTheRandomByte : Prop :=
  ∀ i s t, (∀ x nn, i ≠ .rnd x nn) → exec i s = .next t →
    t.draws = s.draws ∧ ∀ p, exec i { s with randIn := p } = .next { t with randIn := p }

/-! ## Index register and memory -/

/-- Annn and Fx29, whose value above 15 is a no-op (R221, R223). -/
def Obligations.IndexLoads : Prop :=
  ∀ (nnn : Addr12) (x : Nibble) (s : State),
    (∃ t, exec (.ldINnn nnn) s = .next t ∧ t.i.toNat = nnn.toNat ∧ t = { s with i := t.i }) ∧
    ((s.reg x).toNat < 16 →
      ∃ t, exec (.ldFVx x) s = .next t ∧ t.i.toNat = (s.reg x).toNat * 5 ∧ t = { s with i := t.i }) ∧
    (16 ≤ (s.reg x).toNat → exec (.ldFVx x) s = .next s)

/-- Fx1E: the sum modulo 65536, no flag; under I_ADD_OVERFLOW = fault a sum above 0xFFFF raises IndexOverflow (R222;
the parameter is the spec's decision D6, log 5). -/
def Obligations.IndexAdd : Prop :=
  ∀ (x : Nibble) (s : State),
    ((s.cfg.iAddOverflow = .wrap16 ∨ s.i.toNat + (s.reg x).toNat ≤ 0xFFFF) →
      ∃ t, exec (.addIVx x) s = .next t ∧ t.i.toNat = (s.i.toNat + (s.reg x).toNat) % 65536 ∧
        t = { s with i := t.i }) ∧
    (s.cfg.iAddOverflow = .fault → 0xFFFF < s.i.toNat + (s.reg x).toNat →
      exec (.addIVx x) s = .next { s with fault := some .indexOverflow })

/-- Fx33: the three decimal digits at I, I + 1, I + 2, hundreds first, and no other byte (R224; the bound is the spec's
decision D5). -/
def Obligations.BcdStoresThreeDigits : Prop :=
  ∀ (x : Nibble) (s : State), effAddr s 2 ≤ 0xFFF →
    ∃ t, exec (.ldBVx x) s = .next t ∧ t = { s with mem := t.mem } ∧
      (t.readByte (effAddr s 0)).toNat = (s.reg x).toNat / 100 ∧
      (t.readByte (effAddr s 1)).toNat = (s.reg x).toNat / 10 % 10 ∧
      (t.readByte (effAddr s 2)).toNat = (s.reg x).toNat % 10 ∧
      ∀ a, a ≠ effAddr s 0 → a ≠ effAddr s 1 → a ≠ effAddr s 2 → t.readByte a = s.readByte a

/-- Fx55: register k at I + k for k = 0..x, no other byte, I unchanged (R225; bound D5, I unchanged D10). -/
def Obligations.BlockStoreWritesTheRegisters : Prop :=
  ∀ (x : Nibble) (s : State), effAddr s x.toNat ≤ 0xFFF →
    ∃ t, exec (.ldMemVx x) s = .next t ∧ t = { s with mem := t.mem } ∧
      (∀ r : Nibble, r.toNat ≤ x.toNat → t.readByte (effAddr s r.toNat) = s.reg r) ∧
      ∀ a, (a < effAddr s 0 ∨ effAddr s x.toNat < a) → t.readByte a = s.readByte a

/-- Fx65: register k from I + k for k = 0..x, VF a plain register, no other register, no byte of memory, I unchanged
(R226; bound D5, I unchanged D10). -/
def Obligations.BlockLoadReadsTheRegisters : Prop :=
  ∀ (x : Nibble) (s : State), effAddr s x.toNat ≤ 0xFFF →
    ∃ t, exec (.ldVxMem x) s = .next t ∧ t = { s with v := t.v } ∧
      (∀ a, t.readByte a = s.readByte a) ∧
      ∀ r : Nibble, t.reg r = if r.toNat ≤ x.toNat then s.readByte (effAddr s r.toNat) else s.reg r

/-- An I-relative access past 0xFFF raises MemoryOutOfBounds with nothing written, memory, register or pixel (R73, R74,
R305; the spec's decision D5). -/
def Obligations.DataAccessPastMemoryFaults : Prop :=
  ∀ (x y n : Nibble) (s : State),
    (0xFFF < effAddr s 2 → exec (.ldBVx x) s = .next { s with fault := some .memoryOutOfBounds }) ∧
    (0xFFF < effAddr s x.toNat →
      exec (.ldMemVx x) s = .next { s with fault := some .memoryOutOfBounds } ∧
      exec (.ldVxMem x) s = .next { s with fault := some .memoryOutOfBounds }) ∧
    (¬ spriteInBounds s n → exec (.drw x y n) s = .next { s with fault := some .memoryOutOfBounds })

/-- A block store and then the block load of the same registers, from any registers, gives the stored ones back (R225,
R226; it rests on Fx55 leaving I unchanged, the spec's decision D10, log 12; bound D5). -/
def Obligations.BlockLoadUndoesBlockStore : Prop :=
  ∀ (x : Nibble) (s : State) (v' : Vector Byte 16), effAddr s x.toNat ≤ 0xFFF →
    ∃ t u, exec (.ldMemVx x) s = .next t ∧ exec (.ldVxMem x) { t with v := v' } = .next u ∧
      u = { t with v := u.v } ∧ ∀ r : Nibble, r.toNat ≤ x.toNat → u.reg r = s.reg r

/-- Every byte stored by Fx55, Fx33 or a host load is what a fetch that covers its address reads, with no fence: at any
PC, the byte at PC is the word's high byte and the byte at PC + 1 its low byte (R88, R361; bound D5). -/
def Obligations.StoredBytesAreFetched : Prop :=
  (∀ (x : Nibble) (s : State), effAddr s x.toNat ≤ 0xFFF → ∃ t, exec (.ldMemVx x) s = .next t ∧
    ∀ (r : Nibble) (pc : Word), r.toNat ≤ x.toNat →
      (pc.toNat = effAddr s r.toNat → hiByte (fetchWord (t.setPc pc)) = s.reg r) ∧
      (pc.toNat + 1 = effAddr s r.toNat → loByte (fetchWord (t.setPc pc)) = s.reg r)) ∧
  (∀ (x : Nibble) (s : State), effAddr s 2 ≤ 0xFFF → ∃ t, exec (.ldBVx x) s = .next t ∧
    ∀ (k : Fin 3) (pc : Word),
      (pc.toNat = effAddr s k.val → (hiByte (fetchWord (t.setPc pc))).toNat = (s.reg x).toNat / 10 ^ (2 - k.val) % 10) ∧
      (pc.toNat + 1 = effAddr s k.val →
        (loByte (fetchWord (t.setPc pc))).toNat = (s.reg x).toNat / 10 ^ (2 - k.val) % 10)) ∧
  (∀ (a : Addr12) (b : Byte) (s : State) (pc : Word),
    (pc.toNat = a.toNat → hiByte (fetchWord ((hostMove (.load a b) s).setPc pc)) = b) ∧
    (pc.toNat + 1 = a.toNat → loByte (fetchWord ((hostMove (.load a b) s).setPc pc)) = b))

/-! ## Display -/

/-- 00E0 (R252). That redraw is set whether or not a pixel changes is the spec's decision D19 (R255), log 13. -/
def Obligations.ClearScreen : Prop :=
  ∀ s, ∃ t, exec .cls s = .next t ∧ (∀ c r, pixel t.fb c r = false) ∧ t.redraw = true ∧
    t = { s with fb := t.fb, redraw := t.redraw }

/-- Dxyn in closed form: every pixel is its old value XOR the sprite's bit for it, with wrap-around; VF is 1 iff a set
sprite bit falls on a pixel that was set before the draw; redraw is set; x or y = F reads the old VF (R253, R254; the
bit order D11, the bound D5, n = 0 D29, the operand order D8 and redraw on every draw D19 are the spec's decisions, log 12
to log 14). -/
def Obligations.DrawXorsTheSprite : Prop :=
  ∀ (x y n : Nibble) (s : State), spriteInBounds s n →
    ∃ t, exec (.drw x y n) s = .next t ∧
      (∀ c r, pixel t.fb c r = (pixel s.fb c r ^^ spriteCovers s x y n c r)) ∧
      (collides s x y n → t.reg vf = 1) ∧ (¬ collides s x y n → t.reg vf = 0) ∧
      (∀ r, r ≠ vf → t.reg r = s.reg r) ∧ t.redraw = true ∧
      t = { s with v := t.v, fb := t.fb, redraw := t.redraw }

/-- Drawing the same sprite twice at the same place restores the framebuffer; the second draw sets VF iff some pixel the
sprite covers was clear before the first draw. (R253's remark that the second draw sets VF "if the sprite has any set
bit" is this on a screen clear under the sprite; its pseudocode, which the model follows, gives no more: log 19.) The
second draw finds the coordinates it had: with x or y = F, VF is first put back. -/
def Obligations.DrawTwiceRestores : Prop :=
  ∀ (x y n : Nibble) (s : State), spriteInBounds s n →
    ∃ t u, exec (.drw x y n) s = .next t ∧ exec (.drw x y n) (t.setReg vf (s.reg vf)) = .next u ∧
      u.fb = s.fb ∧
      ((∃ c r, spriteCovers s x y n c r = true ∧ pixel s.fb c r = false) → u.reg vf = 1) ∧
      ((∀ c r, spriteCovers s x y n c r = true → pixel s.fb c r = true) → u.reg vf = 0)

/-! ## Keys and timers -/

/-- Ex9E and ExA1: the skip needs Vx ≤ 0xF and the key's state; an index above never skips (R270 to R272). -/
def Obligations.KeySkips : Prop :=
  ∀ (x : Nibble) (s : State),
    (∀ k : Fin 16, (s.reg x).toNat = k.val →
      exec (.skp x) s = .next { s with pc := if s.keys[k.val] = true then s.pc + 2 else s.pc } ∧
      exec (.sknp x) s = .next { s with pc := if s.keys[k.val] = true then s.pc else s.pc + 2 }) ∧
    (16 ≤ (s.reg x).toNat → exec (.skp x) s = .next s ∧ exec (.sknp x) s = .next s)

/-- Fx07, Fx15 and Fx18 (R273, R275, R276). -/
def Obligations.TimerTransfers : Prop :=
  ∀ (x : Nibble) (s : State),
    (∃ t, exec (.ldVxDt x) s = .next t ∧ t = { s with v := t.v } ∧ ∀ r, t.reg r = if r = x then s.dt else s.reg r) ∧
    exec (.ldDtVx x) s = .next { s with dt := s.reg x } ∧
    exec (.ldStVx x) s = .next { s with st := s.reg x }

/-- Fx0A: with a key pressed Vx gets the least pressed index and PC proceeds; with none PC goes back by 2 (R274; the
level-sensitive wait is the spec's decision D20). -/
def Obligations.KeyWaitTakesTheLeastKey : Prop :=
  ∀ (x : Nibble) (s : State),
    (∀ k : Fin 16, s.keys[k.val] = true → (∀ j : Fin 16, j.val < k.val → s.keys[j.val] = false) →
      ∃ t, exec (.ldVxK x) s = .next t ∧ t = { s with v := t.v } ∧
        ∀ r, (t.reg r).toNat = if r = x then k.val else (s.reg r).toNat) ∧
    ((∀ k : Fin 16, s.keys[k.val] = false) → exec (.ldVxK x) s = .next { s with pc := s.pc - 2 })

/-- With no key pressed a step on Fx0A leaves PC at it and still ticks; it changes nothing but tick and timers, and
uses up its random byte (R274, R138; D20; log 8). -/
def Obligations.KeyWaitStepStaysAndTicks : Prop :=
  ∀ (x : Nibble) (s : State), runs s (.ldVxK x) → (∀ k : Fin 16, s.keys[k.val] = false) →
    ∃ t, step s = .next t ∧ t.pc = s.pc ∧ t.tick = s.tick + 1 ∧
      t = { s with tick := t.tick, dt := t.dt, st := t.st, randIn := none }
end

