-- ==== Sys2Proof/Laws/Decode.lean ====
section
/-! SUPPORT. The fields of a word that is built from fields, words built from their own fields, and what the masks of
the opcode table keep. -/

namespace Sys2Proof

theorem toNat_append_mul {n m : Nat} (x : BitVec n) (y : BitVec m) :
    (x ++ y).toNat = x.toNat * 2 ^ m + y.toNat := by
  rw [BitVec.toNat_append, ← Nat.shiftLeft_add_eq_or_of_lt y.isLt, Nat.shiftLeft_eq]

/-! ## The value of a word and of its fields -/

theorem word_nnn_toNat (a : Nibble) (w : Addr12) : BitVec.toNat (a ++ w : Word) = a.toNat * 4096 + w.toNat :=
  toNat_append_mul a w

theorem word_xnn_toNat (a x : Nibble) (nn : Byte) :
    BitVec.toNat (a ++ x ++ nn : Word) = a.toNat * 4096 + x.toNat * 256 + nn.toNat := by
  refine (toNat_append_mul (a ++ x) nn).trans ?_
  rw [toNat_append_mul a x]; omega

theorem word_xyn_toNat (a x y n : Nibble) :
    BitVec.toNat (a ++ x ++ y ++ n : Word) = a.toNat * 4096 + x.toNat * 256 + y.toNat * 16 + n.toNat := by
  refine (toNat_append_mul (a ++ x ++ y) n).trans ?_
  rw [toNat_append_mul (a ++ x) y, toNat_append_mul a x]; omega

theorem addr_xnn_toNat (x : Nibble) (nn : Byte) : BitVec.toNat (x ++ nn : Addr12) = x.toNat * 256 + nn.toNat :=
  toNat_append_mul x nn

theorem addr_xyn_toNat (x y n : Nibble) :
    BitVec.toNat (x ++ y ++ n : Addr12) = x.toNat * 256 + y.toNat * 16 + n.toNat := by
  refine (toNat_append_mul (x ++ y) n).trans ?_
  rw [toNat_append_mul x y]; omega

theorem wordOfBytes_toNat (hi lo : Byte) : (wordOfBytes hi lo).toNat = hi.toNat * 256 + lo.toNat :=
  toNat_append_mul hi lo

theorem opField_toNat (w : Word) : (opField w).toNat = w.toNat / 4096 := by
  have := w.isLt
  simp only [opField, BitVec.extractLsb'_toNat, Nat.shiftRight_eq_div_pow]; omega

theorem xField_toNat (w : Word) : (xField w).toNat = w.toNat / 256 % 16 := by
  simp [xField, BitVec.extractLsb'_toNat, Nat.shiftRight_eq_div_pow]

theorem yField_toNat (w : Word) : (yField w).toNat = w.toNat / 16 % 16 := by
  simp [yField, BitVec.extractLsb'_toNat, Nat.shiftRight_eq_div_pow]

theorem nField_toNat (w : Word) : (nField w).toNat = w.toNat % 16 := by
  simp [nField, BitVec.extractLsb'_toNat]

theorem nnField_toNat (w : Word) : (nnField w).toNat = w.toNat % 256 := by
  simp [nnField, BitVec.extractLsb'_toNat]

theorem nnnField_toNat (w : Word) : (nnnField w).toNat = w.toNat % 4096 := by
  simp [nnnField, BitVec.extractLsb'_toNat]

theorem payloadN_toNat (w : Addr12) : (payloadN w).toNat = w.toNat % 16 := by
  simp [payloadN, BitVec.extractLsb'_toNat]

theorem payloadNn_toNat (w : Addr12) : (payloadNn w).toNat = w.toNat % 256 := by
  simp [payloadNn, BitVec.extractLsb'_toNat]

/-! ## The fields of a word built from fields -/

@[simp] theorem opField_nnn (a : Nibble) (w : Addr12) : opField (a ++ w : Word) = a := by
  have := a.isLt; have := w.isLt
  apply BitVec.eq_of_toNat_eq; rw [opField_toNat, word_nnn_toNat]; omega

@[simp] theorem nnnField_nnn (a : Nibble) (w : Addr12) : nnnField (a ++ w : Word) = w := by
  have := a.isLt; have := w.isLt
  apply BitVec.eq_of_toNat_eq; rw [nnnField_toNat, word_nnn_toNat]; omega

@[simp] theorem nField_nnn (a : Nibble) (w : Addr12) : nField (a ++ w : Word) = payloadN w := by
  have := a.isLt; have := w.isLt
  apply BitVec.eq_of_toNat_eq; rw [nField_toNat, word_nnn_toNat, payloadN_toNat]; omega

@[simp] theorem nnField_nnn (a : Nibble) (w : Addr12) : nnField (a ++ w : Word) = payloadNn w := by
  have := a.isLt; have := w.isLt
  apply BitVec.eq_of_toNat_eq; rw [nnField_toNat, word_nnn_toNat, payloadNn_toNat]; omega

@[simp] theorem opField_xnn (a x : Nibble) (nn : Byte) : opField (a ++ x ++ nn : Word) = a := by
  have := a.isLt; have := x.isLt; have := nn.isLt
  apply BitVec.eq_of_toNat_eq; rw [opField_toNat, word_xnn_toNat]; omega

@[simp] theorem xField_xnn (a x : Nibble) (nn : Byte) : xField (a ++ x ++ nn : Word) = x := by
  have := a.isLt; have := x.isLt; have := nn.isLt
  apply BitVec.eq_of_toNat_eq; rw [xField_toNat, word_xnn_toNat]; omega

@[simp] theorem nnField_xnn (a x : Nibble) (nn : Byte) : nnField (a ++ x ++ nn : Word) = nn := by
  have := a.isLt; have := x.isLt; have := nn.isLt
  apply BitVec.eq_of_toNat_eq; rw [nnField_toNat, word_xnn_toNat]; omega

@[simp] theorem nnnField_xnn (a x : Nibble) (nn : Byte) : nnnField (a ++ x ++ nn : Word) = x ++ nn := by
  have := a.isLt; have := x.isLt; have := nn.isLt
  apply BitVec.eq_of_toNat_eq; rw [nnnField_toNat, word_xnn_toNat, addr_xnn_toNat]; omega

@[simp] theorem opField_xyn (a x y n : Nibble) : opField (a ++ x ++ y ++ n : Word) = a := by
  have := a.isLt; have := x.isLt; have := y.isLt; have := n.isLt
  apply BitVec.eq_of_toNat_eq; rw [opField_toNat, word_xyn_toNat]; omega

@[simp] theorem xField_xyn (a x y n : Nibble) : xField (a ++ x ++ y ++ n : Word) = x := by
  have := a.isLt; have := x.isLt; have := y.isLt; have := n.isLt
  apply BitVec.eq_of_toNat_eq; rw [xField_toNat, word_xyn_toNat]; omega

@[simp] theorem yField_xyn (a x y n : Nibble) : yField (a ++ x ++ y ++ n : Word) = y := by
  have := a.isLt; have := x.isLt; have := y.isLt; have := n.isLt
  apply BitVec.eq_of_toNat_eq; rw [yField_toNat, word_xyn_toNat]; omega

@[simp] theorem nField_xyn (a x y n : Nibble) : nField (a ++ x ++ y ++ n : Word) = n := by
  have := a.isLt; have := x.isLt; have := y.isLt; have := n.isLt
  apply BitVec.eq_of_toNat_eq; rw [nField_toNat, word_xyn_toNat]; omega

@[simp] theorem nnnField_xyn (a x y n : Nibble) : nnnField (a ++ x ++ y ++ n : Word) = x ++ y ++ n := by
  have := a.isLt; have := x.isLt; have := y.isLt; have := n.isLt
  apply BitVec.eq_of_toNat_eq; rw [nnnField_toNat, word_xyn_toNat, addr_xyn_toNat]; omega

@[simp] theorem yField_xnn (a x : Nibble) (nn : Byte) : yField (a ++ x ++ nn : Word) = nn.extractLsb' 4 4 := by
  have := nn.isLt
  apply BitVec.eq_of_toNat_eq
  rw [yField_toNat, word_xnn_toNat, BitVec.extractLsb'_toNat, Nat.shiftRight_eq_div_pow]; omega

@[simp] theorem nField_xnn (a x : Nibble) (nn : Byte) : nField (a ++ x ++ nn : Word) = nn.extractLsb' 0 4 := by
  have := nn.isLt
  apply BitVec.eq_of_toNat_eq
  rw [nField_toNat, word_xnn_toNat, BitVec.extractLsb'_toNat, Nat.shiftRight_eq_div_pow]; omega

/-! ## A word is built from its own fields -/

theorem word_of_op_nnn (w : Word) : (opField w ++ nnnField w : Word) = w := by
  apply BitVec.eq_of_toNat_eq
  rw [word_nnn_toNat, opField_toNat, nnnField_toNat]; omega

theorem word_of_op_x_nn (w : Word) : (opField w ++ xField w ++ nnField w : Word) = w := by
  apply BitVec.eq_of_toNat_eq
  rw [word_xnn_toNat, opField_toNat, xField_toNat, nnField_toNat]; omega

theorem word_of_op_x_y_n (w : Word) : (opField w ++ xField w ++ yField w ++ nField w : Word) = w := by
  apply BitVec.eq_of_toNat_eq
  rw [word_xyn_toNat, opField_toNat, xField_toNat, yField_toNat, nField_toNat]; omega

theorem payloadN_nnnField (w : Word) : payloadN (nnnField w) = nField w := by
  apply BitVec.eq_of_toNat_eq
  rw [payloadN_toNat, nnnField_toNat, nField_toNat]; omega

theorem payloadNn_nnnField (w : Word) : payloadNn (nnnField w) = nnField w := by
  apply BitVec.eq_of_toNat_eq
  rw [payloadNn_toNat, nnnField_toNat, nnField_toNat]; omega

theorem wordOfBytes_hi_lo (w : Word) : wordOfBytes (hiByte w) (loByte w) = w := by
  have := w.isLt
  apply BitVec.eq_of_toNat_eq
  rw [wordOfBytes_toNat]
  simp only [hiByte, loByte, BitVec.extractLsb'_toNat, Nat.shiftRight_eq_div_pow]
  omega

@[simp] theorem hiByte_wordOfBytes (hi lo : Byte) : hiByte (wordOfBytes hi lo) = hi := by
  have := lo.isLt
  apply BitVec.eq_of_toNat_eq
  simp only [hiByte, BitVec.extractLsb'_toNat, Nat.shiftRight_eq_div_pow, wordOfBytes_toNat]
  omega

@[simp] theorem loByte_wordOfBytes (hi lo : Byte) : loByte (wordOfBytes hi lo) = lo := by
  apply BitVec.eq_of_toNat_eq
  simp only [loByte, BitVec.extractLsb'_toNat, Nat.shiftRight_eq_div_pow, wordOfBytes_toNat]
  omega

/-! ## What the masks keep -/

theorem word_and (a x y n a' x' y' n' : Nibble) :
    (a ++ x ++ y ++ n : Word) &&& (a' ++ x' ++ y' ++ n' : Word) =
      ((a &&& a') ++ (x &&& x') ++ (y &&& y') ++ (n &&& n') : Word) := by
  refine BitVec.and_append.trans (congrArg (· ++ (n &&& n')) ?_)
  exact BitVec.and_append.trans (congrArg (· ++ (y &&& y')) BitVec.and_append)

theorem nibble_and_ones (a : Nibble) : a &&& 15#4 = a := BitVec.and_allOnes (x := a)

theorem and_F000 (w : Word) : w &&& 0xF000 = (opField w ++ 0x0#4 ++ 0x0#4 ++ 0x0#4 : Word) := by
  conv => lhs; rw [← word_of_op_x_y_n w]
  exact (word_and _ _ _ _ 0xF 0x0 0x0 0x0).trans (by simp [nibble_and_ones])

theorem and_F00F (w : Word) : w &&& 0xF00F = (opField w ++ 0x0#4 ++ 0x0#4 ++ nField w : Word) := by
  conv => lhs; rw [← word_of_op_x_y_n w]
  exact (word_and _ _ _ _ 0xF 0x0 0x0 0xF).trans (by simp [nibble_and_ones])

theorem and_F0FF (w : Word) : w &&& 0xF0FF = (opField w ++ 0x0#4 ++ yField w ++ nField w : Word) := by
  conv => lhs; rw [← word_of_op_x_y_n w]
  exact (word_and _ _ _ _ 0xF 0x0 0xF 0xF).trans (by simp [nibble_and_ones])

theorem and_FFFF (w : Word) : w &&& 0xFFFF = w := BitVec.and_allOnes (x := w)

/-- Words with the same nibbles are the same, and only they. -/
theorem word_xyn_inj (a x y n a' x' y' n' : Nibble) :
    (a ++ x ++ y ++ n : Word) = (a' ++ x' ++ y' ++ n' : Word) ↔ a = a' ∧ x = x' ∧ y = y' ∧ n = n' := by
  constructor
  · intro h
    have ha := congrArg opField h
    have hx := congrArg xField h
    have hy := congrArg yField h
    have hn := congrArg nField h
    simp only [opField_xyn, xField_xyn, yField_xyn, nField_xyn] at ha hx hy hn
    exact ⟨ha, hx, hy, hn⟩
  · rintro ⟨rfl, rfl, rfl, rfl⟩
    rfl

/-! ## Which words a row selects -/

/-- A row with mask F000. -/
theorem selects_F000 (a : Nibble) (w : Word) :
    (OpRow.mk 0xF000 (a ++ 0x0#4 ++ 0x0#4 ++ 0x0#4 : Word)).selects w = true ↔ opField w = a := by
  simp only [OpRow.selects, beq_iff_eq, and_F000, word_xyn_inj, and_true]

/-- A row with mask F00F. -/
theorem selects_F00F (a n : Nibble) (w : Word) :
    (OpRow.mk 0xF00F (a ++ 0x0#4 ++ 0x0#4 ++ n : Word)).selects w = true ↔ opField w = a ∧ nField w = n := by
  simp only [OpRow.selects, beq_iff_eq, and_F00F, word_xyn_inj, true_and]

/-- A row with mask F0FF. -/
theorem selects_F0FF (a y n : Nibble) (w : Word) :
    (OpRow.mk 0xF0FF (a ++ 0x0#4 ++ y ++ n : Word)).selects w = true ↔
      opField w = a ∧ yField w = y ∧ nField w = n := by
  simp only [OpRow.selects, beq_iff_eq, and_F0FF, word_xyn_inj, true_and]

end Sys2Proof
end

