-- ==== Sys2Proof/Laws/Memory.lean ====
section
/-! SUPPORT. The laws of memory: what a read sees after a write, and that every operation keeps the canonical form. -/

namespace Sys2Proof.Machine

@[simp] theorem Memory.read_nil (a : Nat) : Memory.read [] a = unlistedByte := rfl

theorem Memory.read_cons (k : Nat) (b : Byte) (m : Memory) (a : Nat) :
    Memory.read ((k, b) :: m) a = if k = a then b else Memory.read m a := rfl

theorem Memory.erase_cons (k : Nat) (b : Byte) (m : Memory) (a : Nat) :
    Memory.erase ((k, b) :: m) a = if k = a then Memory.erase m a else (k, b) :: Memory.erase m a := by
  by_cases h : k = a <;> simp [Memory.erase, h]

theorem Memory.read_erase (m : Memory) (a c : Nat) :
    (Memory.erase m a).read c = if c = a then unlistedByte else m.read c := by
  induction m with
  | nil => simp [Memory.erase]
  | cons cell rest ih =>
    obtain ⟨k, v⟩ := cell
    rw [Memory.erase_cons]
    by_cases h1 : k = a <;> by_cases h2 : k = c <;> by_cases h3 : c = a <;>
      simp_all [Memory.read_cons]

theorem Memory.erase_key_ne (m : Memory) (a : Nat) : ∀ cell ∈ Memory.erase m a, cell.1 ≠ a := by
  simp [Memory.erase]

theorem Memory.read_insert (m : Memory) (a c : Nat) (b : Byte) (h : ∀ cell ∈ m, cell.1 ≠ a) :
    (Memory.insert m a b).read c = if c = a then b else m.read c := by
  induction m with
  | nil => simp only [Memory.insert, Memory.read_cons, eq_comm]
  | cons cell rest ih =>
    obtain ⟨k, v⟩ := cell
    have hk : k ≠ a := h (k, v) (by simp)
    have ih := ih fun x hx => h x (by simp [hx])
    simp only [Memory.insert]
    split <;> simp only [Memory.read_cons, ih] <;> by_cases h3 : c = a
    · simp [h3]
    · rw [if_neg (Ne.symm h3), if_neg h3]
    · rw [if_neg (by omega), if_pos h3, if_pos h3]
    · rw [if_neg h3, if_neg h3]

/-- A read after a write: the written byte at its address, every other address as before. -/
theorem Memory.read_write (m : Memory) (a c : Nat) (b : Byte) :
    (m.write a b).read c = if c = a then b else m.read c := by
  unfold Memory.write
  split
  · simp_all [Memory.read_erase]
  · rw [Memory.read_insert _ _ _ _ (Memory.erase_key_ne m a), Memory.read_erase]
    split <;> rfl

/-- A read after a block write: the block's byte inside it, the old byte outside it. -/
theorem Memory.read_writeBytes (m : Memory) (a c : Nat) (bs : List Byte) :
    (m.writeBytes a bs).read c = if a ≤ c ∧ c < a + bs.length then bs.getD (c - a) 0 else m.read c := by
  induction bs generalizing m a with
  | nil => rw [if_neg (by rw [List.length_nil]; omega)]; rfl
  | cons b bs ih =>
    simp only [Memory.writeBytes, ih, Memory.read_write, List.length_cons]
    rcases Nat.lt_trichotomy c a with h | rfl | h
    · rw [if_neg (by omega), if_neg (by omega), if_neg (by omega)]
    · rw [if_neg (by omega), if_pos rfl, if_pos (by omega)]; simp
    · obtain ⟨d, rfl⟩ : ∃ d, c = a + 1 + d := ⟨c - (a + 1), by omega⟩
      have e1 : a + 1 + d - (a + 1) = d := by omega
      have e2 : a + 1 + d - a = d + 1 := by omega
      rw [e1, e2, List.getD_cons_succ, if_neg (show ¬ a + 1 + d = a by omega)]
      congr 1
      apply propext
      omega

theorem Memory.length_readBytes (m : Memory) (a n : Nat) : (m.readBytes a n).length = n := by
  induction n generalizing a with
  | zero => rfl
  | succ n ih => simp [Memory.readBytes, ih]

/-- The k-th byte of a block read. -/
theorem Memory.getD_readBytes (m : Memory) (a n k : Nat) (d : Byte) :
    (m.readBytes a n).getD k d = if k < n then m.read (a + k) else d := by
  induction n generalizing a k with
  | zero => simp [Memory.readBytes]
  | succ n ih =>
    cases k with
    | zero => simp [Memory.readBytes]
    | succ k =>
      simp only [Memory.readBytes, List.getD_cons_succ, ih]
      rw [show a + 1 + k = a + (k + 1) by omega]
      simp

/-! ## The canonical form -/

theorem Memory.wf_nil : Memory.wf [] = true := rfl

theorem Memory.rising_iff_pairwise (m : Memory) :
    m.rising = true ↔ m.Pairwise fun p q => p.1 < q.1 := by
  induction m with
  | nil => simp [Memory.rising]
  | cons cell rest ih =>
    obtain ⟨k, v⟩ := cell
    cases rest with
    | nil => simp [Memory.rising]
    | cons cell2 rest2 =>
      obtain ⟨l, c⟩ := cell2
      simp only [Memory.rising, Bool.and_eq_true, decide_eq_true_eq, ih, List.pairwise_cons]
      constructor
      · rintro ⟨h, h2, h3⟩
        refine ⟨fun x hx => ?_, h2, h3⟩
        rcases List.mem_cons.mp hx with rfl | hx
        · exact h
        · exact Nat.lt_trans h (h2 x hx)
      · rintro ⟨h, h2, h3⟩
        exact ⟨h (l, c) (by simp), h2, h3⟩

theorem Memory.wf_iff (m : Memory) :
    m.wf = true ↔ m.Pairwise (fun p q => p.1 < q.1) ∧ ∀ p ∈ m, p.1 < memSize ∧ p.2 ≠ unlistedByte := by
  simp [Memory.wf, Memory.rising_iff_pairwise]

theorem Memory.mem_insert (m : Memory) (a : Nat) (b : Byte) (p : Host.Cell) :
    p ∈ Memory.insert m a b ↔ p = (a, b) ∨ p ∈ m := by
  induction m with
  | nil => simp [Memory.insert]
  | cons cell rest ih =>
    simp only [Memory.insert]
    split <;> simp [ih]
    tauto

theorem Memory.pairwise_insert (m : Memory) (a : Nat) (b : Byte) (hne : ∀ p ∈ m, p.1 ≠ a)
    (h : m.Pairwise fun p q => p.1 < q.1) : (Memory.insert m a b).Pairwise fun p q => p.1 < q.1 := by
  induction m with
  | nil => simp [Memory.insert]
  | cons cell rest ih =>
    obtain ⟨k, v⟩ := cell
    have hk : k ≠ a := hne (k, v) (by simp)
    rw [List.pairwise_cons] at h
    simp only [Memory.insert]
    split
    · rename_i hlt
      rw [List.pairwise_cons]
      refine ⟨fun p hp => ?_, List.pairwise_cons.mpr h⟩
      rcases List.mem_cons.mp hp with rfl | hp
      · exact hlt
      · exact Nat.lt_trans hlt (h.1 p hp)
    · rw [List.pairwise_cons]
      refine ⟨fun p hp => ?_, ih (fun p hp => hne p (by simp [hp])) h.2⟩
      rcases (Memory.mem_insert rest a b p).mp hp with rfl | hp
      · show k < a; omega
      · exact h.1 p hp

theorem Memory.wf_erase (m : Memory) (a : Nat) (h : m.wf = true) : (Memory.erase m a).wf = true := by
  rw [Memory.wf_iff] at h ⊢
  exact ⟨h.1.filter _, fun p hp => h.2 p (List.mem_of_mem_filter hp)⟩

/-- A write of an existing address keeps the canonical form. -/
theorem Memory.wf_write (m : Memory) (a : Nat) (b : Byte) (ha : a < memSize) (h : m.wf = true) :
    (m.write a b).wf = true := by
  unfold Memory.write
  split
  · exact Memory.wf_erase m a h
  · rename_i hb
    have he := (Memory.wf_iff _).mp (Memory.wf_erase m a h)
    rw [Memory.wf_iff]
    refine ⟨Memory.pairwise_insert _ a b (Memory.erase_key_ne m a) he.1, fun p hp => ?_⟩
    rcases (Memory.mem_insert _ a b p).mp hp with rfl | hp
    · exact ⟨ha, hb⟩
    · exact he.2 p hp

/-- A block write inside the address space keeps the canonical form. -/
theorem Memory.wf_writeBytes (m : Memory) (a : Nat) (bs : List Byte) (ha : a + bs.length ≤ memSize)
    (h : m.wf = true) : (m.writeBytes a bs).wf = true := by
  induction bs generalizing m a with
  | nil => exact h
  | cons b bs ih =>
    rw [List.length_cons] at ha
    exact ih _ _ (by omega) (Memory.wf_write m a b (by omega) h)

/-- A byte an entry lists, in a canonical memory. -/
theorem Memory.read_of_below (m : Memory) (a : Nat) (h : ∀ p ∈ m, a < p.1) : m.read a = unlistedByte := by
  induction m with
  | nil => rfl
  | cons cell rest ih =>
    have hk : a < cell.1 := h cell (by simp)
    rw [show cell :: rest = (cell.1, cell.2) :: rest from rfl, Memory.read_cons, if_neg (by omega)]
    exact ih fun p hp => h p (by simp [hp])

/-- Canonical memories that read alike are the same list. -/
theorem Memory.eq_of_read (m n : Memory) (hm : m.wf = true) (hn : n.wf = true)
    (h : ∀ a, m.read a = n.read a) : m = n := by
  rw [Memory.wf_iff] at hm hn
  induction m generalizing n with
  | nil =>
    cases n with
    | nil => rfl
    | cons cell rest =>
      have := h cell.1
      rw [show cell :: rest = (cell.1, cell.2) :: rest from rfl, Memory.read_cons, if_pos rfl] at this
      exact absurd this.symm (hn.2 cell (by simp)).2
  | cons cell rest ih =>
    obtain ⟨k, v⟩ := cell
    have hv := (hm.2 (k, v) (by simp)).2
    rw [List.pairwise_cons] at hm
    cases n with
    | nil =>
      have := h k
      rw [Memory.read_cons, if_pos rfl] at this
      exact absurd this hv
    | cons cell2 rest2 =>
      obtain ⟨l, c⟩ := cell2
      have hc := (hn.2 (l, c) (by simp)).2
      rw [List.pairwise_cons] at hn
      have below : ∀ (a b : Nat) (r : Memory), a < b → (∀ p ∈ r, b < p.1) → r.read a = unlistedByte :=
        fun a b r hab hr => Memory.read_of_below r a fun p hp => Nat.lt_trans hab (hr p hp)
      have hkl : k = l := by
        rcases Nat.lt_trichotomy k l with hlt | heq | hgt
        · have := h k
          rw [Memory.read_cons, Memory.read_cons, if_pos rfl, if_neg (by omega), below k l rest2 hlt hn.1.1] at this
          exact absurd this hv
        · exact heq
        · have := h l
          rw [Memory.read_cons, Memory.read_cons, if_pos rfl, if_neg (by omega), below l k rest hgt hm.1.1] at this
          exact absurd this.symm hc
      subst hkl
      have hvc : v = c := by simpa [Memory.read_cons] using h k
      subst hvc
      congr 1
      refine ih rest2 ⟨hm.1.2, fun p hp => hm.2 p (by simp [hp])⟩
        ⟨hn.1.2, fun p hp => hn.2 p (by simp [hp])⟩ fun a => ?_
      by_cases ha : k = a
      · subst ha
        rw [Memory.read_of_below rest _ hm.1.1, Memory.read_of_below rest2 _ hn.1.1]
      · simpa [Memory.read_cons, ha] using h a

end Sys2Proof.Machine
end

