-- ==== Sys2Proof/Laws/State.lean ====
section
/-! SUPPORT. One lemma per field per update of the state, each true by rfl. -/

namespace Sys2Proof.Machine

@[simp] theorem State.setReg_v (s : State) (x : Nibble) (b : Byte) : (s.setReg x b).v = s.v.set x.toNat b := rfl
@[simp] theorem State.setReg_pc (s : State) (x : Nibble) (b : Byte) : (s.setReg x b).pc = s.pc := rfl
@[simp] theorem State.setReg_i (s : State) (x : Nibble) (b : Byte) : (s.setReg x b).i = s.i := rfl
@[simp] theorem State.setReg_stack (s : State) (x : Nibble) (b : Byte) : (s.setReg x b).stack = s.stack := rfl
@[simp] theorem State.setReg_sp (s : State) (x : Nibble) (b : Byte) : (s.setReg x b).sp = s.sp := rfl
@[simp] theorem State.setReg_dt (s : State) (x : Nibble) (b : Byte) : (s.setReg x b).dt = s.dt := rfl
@[simp] theorem State.setReg_st (s : State) (x : Nibble) (b : Byte) : (s.setReg x b).st = s.st := rfl
@[simp] theorem State.setReg_tick (s : State) (x : Nibble) (b : Byte) : (s.setReg x b).tick = s.tick := rfl
@[simp] theorem State.setReg_fb (s : State) (x : Nibble) (b : Byte) : (s.setReg x b).fb = s.fb := rfl
@[simp] theorem State.setReg_redraw (s : State) (x : Nibble) (b : Byte) : (s.setReg x b).redraw = s.redraw := rfl
@[simp] theorem State.setReg_keys (s : State) (x : Nibble) (b : Byte) : (s.setReg x b).keys = s.keys := rfl
@[simp] theorem State.setReg_fault (s : State) (x : Nibble) (b : Byte) : (s.setReg x b).fault = s.fault := rfl
@[simp] theorem State.setReg_mem (s : State) (x : Nibble) (b : Byte) : (s.setReg x b).mem = s.mem := rfl
@[simp] theorem State.setReg_cfg (s : State) (x : Nibble) (b : Byte) : (s.setReg x b).cfg = s.cfg := rfl
@[simp] theorem State.setReg_randIn (s : State) (x : Nibble) (b : Byte) : (s.setReg x b).randIn = s.randIn := rfl
@[simp] theorem State.setReg_draws (s : State) (x : Nibble) (b : Byte) : (s.setReg x b).draws = s.draws := rfl

@[simp] theorem State.setPc_v (s : State) (a : Word) : (s.setPc a).v = s.v := rfl
@[simp] theorem State.setPc_pc (s : State) (a : Word) : (s.setPc a).pc = a := rfl
@[simp] theorem State.setPc_i (s : State) (a : Word) : (s.setPc a).i = s.i := rfl
@[simp] theorem State.setPc_stack (s : State) (a : Word) : (s.setPc a).stack = s.stack := rfl
@[simp] theorem State.setPc_sp (s : State) (a : Word) : (s.setPc a).sp = s.sp := rfl
@[simp] theorem State.setPc_dt (s : State) (a : Word) : (s.setPc a).dt = s.dt := rfl
@[simp] theorem State.setPc_st (s : State) (a : Word) : (s.setPc a).st = s.st := rfl
@[simp] theorem State.setPc_tick (s : State) (a : Word) : (s.setPc a).tick = s.tick := rfl
@[simp] theorem State.setPc_fb (s : State) (a : Word) : (s.setPc a).fb = s.fb := rfl
@[simp] theorem State.setPc_redraw (s : State) (a : Word) : (s.setPc a).redraw = s.redraw := rfl
@[simp] theorem State.setPc_keys (s : State) (a : Word) : (s.setPc a).keys = s.keys := rfl
@[simp] theorem State.setPc_fault (s : State) (a : Word) : (s.setPc a).fault = s.fault := rfl
@[simp] theorem State.setPc_mem (s : State) (a : Word) : (s.setPc a).mem = s.mem := rfl
@[simp] theorem State.setPc_cfg (s : State) (a : Word) : (s.setPc a).cfg = s.cfg := rfl
@[simp] theorem State.setPc_randIn (s : State) (a : Word) : (s.setPc a).randIn = s.randIn := rfl
@[simp] theorem State.setPc_draws (s : State) (a : Word) : (s.setPc a).draws = s.draws := rfl

@[simp] theorem State.setI_v (s : State) (a : Word) : (s.setI a).v = s.v := rfl
@[simp] theorem State.setI_pc (s : State) (a : Word) : (s.setI a).pc = s.pc := rfl
@[simp] theorem State.setI_i (s : State) (a : Word) : (s.setI a).i = a := rfl
@[simp] theorem State.setI_stack (s : State) (a : Word) : (s.setI a).stack = s.stack := rfl
@[simp] theorem State.setI_sp (s : State) (a : Word) : (s.setI a).sp = s.sp := rfl
@[simp] theorem State.setI_dt (s : State) (a : Word) : (s.setI a).dt = s.dt := rfl
@[simp] theorem State.setI_st (s : State) (a : Word) : (s.setI a).st = s.st := rfl
@[simp] theorem State.setI_tick (s : State) (a : Word) : (s.setI a).tick = s.tick := rfl
@[simp] theorem State.setI_fb (s : State) (a : Word) : (s.setI a).fb = s.fb := rfl
@[simp] theorem State.setI_redraw (s : State) (a : Word) : (s.setI a).redraw = s.redraw := rfl
@[simp] theorem State.setI_keys (s : State) (a : Word) : (s.setI a).keys = s.keys := rfl
@[simp] theorem State.setI_fault (s : State) (a : Word) : (s.setI a).fault = s.fault := rfl
@[simp] theorem State.setI_mem (s : State) (a : Word) : (s.setI a).mem = s.mem := rfl
@[simp] theorem State.setI_cfg (s : State) (a : Word) : (s.setI a).cfg = s.cfg := rfl
@[simp] theorem State.setI_randIn (s : State) (a : Word) : (s.setI a).randIn = s.randIn := rfl
@[simp] theorem State.setI_draws (s : State) (a : Word) : (s.setI a).draws = s.draws := rfl

@[simp] theorem State.setSlot_v (s : State) (k : Fin 16) (a : Word) : (s.setSlot k a).v = s.v := rfl
@[simp] theorem State.setSlot_pc (s : State) (k : Fin 16) (a : Word) : (s.setSlot k a).pc = s.pc := rfl
@[simp] theorem State.setSlot_i (s : State) (k : Fin 16) (a : Word) : (s.setSlot k a).i = s.i := rfl
@[simp] theorem State.setSlot_stack (s : State) (k : Fin 16) (a : Word) : (s.setSlot k a).stack = s.stack.set k.val a := rfl
@[simp] theorem State.setSlot_sp (s : State) (k : Fin 16) (a : Word) : (s.setSlot k a).sp = s.sp := rfl
@[simp] theorem State.setSlot_dt (s : State) (k : Fin 16) (a : Word) : (s.setSlot k a).dt = s.dt := rfl
@[simp] theorem State.setSlot_st (s : State) (k : Fin 16) (a : Word) : (s.setSlot k a).st = s.st := rfl
@[simp] theorem State.setSlot_tick (s : State) (k : Fin 16) (a : Word) : (s.setSlot k a).tick = s.tick := rfl
@[simp] theorem State.setSlot_fb (s : State) (k : Fin 16) (a : Word) : (s.setSlot k a).fb = s.fb := rfl
@[simp] theorem State.setSlot_redraw (s : State) (k : Fin 16) (a : Word) : (s.setSlot k a).redraw = s.redraw := rfl
@[simp] theorem State.setSlot_keys (s : State) (k : Fin 16) (a : Word) : (s.setSlot k a).keys = s.keys := rfl
@[simp] theorem State.setSlot_fault (s : State) (k : Fin 16) (a : Word) : (s.setSlot k a).fault = s.fault := rfl
@[simp] theorem State.setSlot_mem (s : State) (k : Fin 16) (a : Word) : (s.setSlot k a).mem = s.mem := rfl
@[simp] theorem State.setSlot_cfg (s : State) (k : Fin 16) (a : Word) : (s.setSlot k a).cfg = s.cfg := rfl
@[simp] theorem State.setSlot_randIn (s : State) (k : Fin 16) (a : Word) : (s.setSlot k a).randIn = s.randIn := rfl
@[simp] theorem State.setSlot_draws (s : State) (k : Fin 16) (a : Word) : (s.setSlot k a).draws = s.draws := rfl

@[simp] theorem State.raise_v (s : State) (c : Fault) : (s.raise c).v = s.v := rfl
@[simp] theorem State.raise_pc (s : State) (c : Fault) : (s.raise c).pc = s.pc := rfl
@[simp] theorem State.raise_i (s : State) (c : Fault) : (s.raise c).i = s.i := rfl
@[simp] theorem State.raise_stack (s : State) (c : Fault) : (s.raise c).stack = s.stack := rfl
@[simp] theorem State.raise_sp (s : State) (c : Fault) : (s.raise c).sp = s.sp := rfl
@[simp] theorem State.raise_dt (s : State) (c : Fault) : (s.raise c).dt = s.dt := rfl
@[simp] theorem State.raise_st (s : State) (c : Fault) : (s.raise c).st = s.st := rfl
@[simp] theorem State.raise_tick (s : State) (c : Fault) : (s.raise c).tick = s.tick := rfl
@[simp] theorem State.raise_fb (s : State) (c : Fault) : (s.raise c).fb = s.fb := rfl
@[simp] theorem State.raise_redraw (s : State) (c : Fault) : (s.raise c).redraw = s.redraw := rfl
@[simp] theorem State.raise_keys (s : State) (c : Fault) : (s.raise c).keys = s.keys := rfl
@[simp] theorem State.raise_fault (s : State) (c : Fault) : (s.raise c).fault = some c := rfl
@[simp] theorem State.raise_mem (s : State) (c : Fault) : (s.raise c).mem = s.mem := rfl
@[simp] theorem State.raise_cfg (s : State) (c : Fault) : (s.raise c).cfg = s.cfg := rfl
@[simp] theorem State.raise_randIn (s : State) (c : Fault) : (s.raise c).randIn = s.randIn := rfl
@[simp] theorem State.raise_draws (s : State) (c : Fault) : (s.raise c).draws = s.draws := rfl

@[simp] theorem State.clearRandIn_v (s : State) : s.clearRandIn.v = s.v := rfl
@[simp] theorem State.clearRandIn_pc (s : State) : s.clearRandIn.pc = s.pc := rfl
@[simp] theorem State.clearRandIn_i (s : State) : s.clearRandIn.i = s.i := rfl
@[simp] theorem State.clearRandIn_stack (s : State) : s.clearRandIn.stack = s.stack := rfl
@[simp] theorem State.clearRandIn_sp (s : State) : s.clearRandIn.sp = s.sp := rfl
@[simp] theorem State.clearRandIn_dt (s : State) : s.clearRandIn.dt = s.dt := rfl
@[simp] theorem State.clearRandIn_st (s : State) : s.clearRandIn.st = s.st := rfl
@[simp] theorem State.clearRandIn_tick (s : State) : s.clearRandIn.tick = s.tick := rfl
@[simp] theorem State.clearRandIn_fb (s : State) : s.clearRandIn.fb = s.fb := rfl
@[simp] theorem State.clearRandIn_redraw (s : State) : s.clearRandIn.redraw = s.redraw := rfl
@[simp] theorem State.clearRandIn_keys (s : State) : s.clearRandIn.keys = s.keys := rfl
@[simp] theorem State.clearRandIn_fault (s : State) : s.clearRandIn.fault = s.fault := rfl
@[simp] theorem State.clearRandIn_mem (s : State) : s.clearRandIn.mem = s.mem := rfl
@[simp] theorem State.clearRandIn_cfg (s : State) : s.clearRandIn.cfg = s.cfg := rfl
@[simp] theorem State.clearRandIn_randIn (s : State) : s.clearRandIn.randIn = none := rfl
@[simp] theorem State.clearRandIn_draws (s : State) : s.clearRandIn.draws = s.draws := rfl

end Sys2Proof.Machine
end

