-- ==== Sys2Proof/Laws/Ops.lean ====
section
/-! SUPPORT. What each shared operation can do, said once. -/

namespace Sys2Proof.Machine

/-! ## Registers -/

theorem State.reg_setReg (s : State) (x y : Nibble) (b : Byte) :
    (s.setReg x b).reg y = if y = x then b else s.reg y := by
  have h : x.toNat = y.toNat ↔ y = x := by rw [eq_comm, BitVec.toNat_inj]
  simp only [State.reg, State.setReg, Vector.getElem_set, h]

@[simp] theorem State.reg_setReg_same (s : State) (x : Nibble) (b : Byte) : (s.setReg x b).reg x = b := by
  simp [State.reg_setReg]

/-- A register file is known by its registers. -/
theorem State.v_ext (s t : State) (h : ∀ r, s.reg r = t.reg r) : s.v = t.v := by
  apply Vector.ext
  intro k hk
  have := h (BitVec.ofNat 4 k)
  simpa [State.reg, Nat.mod_eq_of_lt hk] using this

theorem State.reg_of_v {s t : State} (h : s.v = t.v) (r : Nibble) : s.reg r = t.reg r := by
  simp [State.reg, h]

/-! ## Phases F and T -/

@[simp] theorem fetchAdvance_pc (s : State) : (fetchAdvance s).pc = s.pc + 2 := rfl
@[simp] theorem fetchAdvance_v (s : State) : (fetchAdvance s).v = s.v := rfl
@[simp] theorem fetchAdvance_i (s : State) : (fetchAdvance s).i = s.i := rfl
@[simp] theorem fetchAdvance_stack (s : State) : (fetchAdvance s).stack = s.stack := rfl
@[simp] theorem fetchAdvance_sp (s : State) : (fetchAdvance s).sp = s.sp := rfl
@[simp] theorem fetchAdvance_dt (s : State) : (fetchAdvance s).dt = s.dt := rfl
@[simp] theorem fetchAdvance_st (s : State) : (fetchAdvance s).st = s.st := rfl
@[simp] theorem fetchAdvance_tick (s : State) : (fetchAdvance s).tick = s.tick := rfl
@[simp] theorem fetchAdvance_fb (s : State) : (fetchAdvance s).fb = s.fb := rfl
@[simp] theorem fetchAdvance_redraw (s : State) : (fetchAdvance s).redraw = s.redraw := rfl
@[simp] theorem fetchAdvance_keys (s : State) : (fetchAdvance s).keys = s.keys := rfl
@[simp] theorem fetchAdvance_fault (s : State) : (fetchAdvance s).fault = s.fault := rfl
@[simp] theorem fetchAdvance_mem (s : State) : (fetchAdvance s).mem = s.mem := rfl
@[simp] theorem fetchAdvance_cfg (s : State) : (fetchAdvance s).cfg = s.cfg := rfl
@[simp] theorem fetchAdvance_randIn (s : State) : (fetchAdvance s).randIn = s.randIn := rfl
@[simp] theorem fetchAdvance_draws (s : State) : (fetchAdvance s).draws = s.draws := rfl

@[simp] theorem tickPhase_tick (s : State) : (tickPhase s).tick = s.tick + 1 := by unfold tickPhase; split <;> rfl
@[simp] theorem tickPhase_v (s : State) : (tickPhase s).v = s.v := by unfold tickPhase; split <;> rfl
@[simp] theorem tickPhase_pc (s : State) : (tickPhase s).pc = s.pc := by unfold tickPhase; split <;> rfl
@[simp] theorem tickPhase_i (s : State) : (tickPhase s).i = s.i := by unfold tickPhase; split <;> rfl
@[simp] theorem tickPhase_stack (s : State) : (tickPhase s).stack = s.stack := by unfold tickPhase; split <;> rfl
@[simp] theorem tickPhase_sp (s : State) : (tickPhase s).sp = s.sp := by unfold tickPhase; split <;> rfl
@[simp] theorem tickPhase_fb (s : State) : (tickPhase s).fb = s.fb := by unfold tickPhase; split <;> rfl
@[simp] theorem tickPhase_redraw (s : State) : (tickPhase s).redraw = s.redraw := by unfold tickPhase; split <;> rfl
@[simp] theorem tickPhase_keys (s : State) : (tickPhase s).keys = s.keys := by unfold tickPhase; split <;> rfl
@[simp] theorem tickPhase_fault (s : State) : (tickPhase s).fault = s.fault := by unfold tickPhase; split <;> rfl
@[simp] theorem tickPhase_mem (s : State) : (tickPhase s).mem = s.mem := by unfold tickPhase; split <;> rfl
@[simp] theorem tickPhase_cfg (s : State) : (tickPhase s).cfg = s.cfg := by unfold tickPhase; split <;> rfl
@[simp] theorem tickPhase_randIn (s : State) : (tickPhase s).randIn = s.randIn := by unfold tickPhase; split <;> rfl
@[simp] theorem tickPhase_draws (s : State) : (tickPhase s).draws = s.draws := by unfold tickPhase; split <;> rfl

theorem tickPhase_dt (s : State) :
    (tickPhase s).dt = if countsDownAt s.cfg.timerDivisor (s.tick + 1) then countDown s.dt else s.dt := by
  unfold tickPhase; split <;> rfl

theorem tickPhase_st (s : State) :
    (tickPhase s).st = if countsDownAt s.cfg.timerDivisor (s.tick + 1) then countDown s.st else s.st := by
  unfold tickPhase; split <;> rfl

@[simp] theorem beforeExecute_pc (s : State) : (beforeExecute s).pc = s.pc + 2 := by simp [beforeExecute]
@[simp] theorem beforeExecute_tick (s : State) : (beforeExecute s).tick = s.tick + 1 := by simp [beforeExecute]
@[simp] theorem beforeExecute_v (s : State) : (beforeExecute s).v = s.v := by simp [beforeExecute]
@[simp] theorem beforeExecute_i (s : State) : (beforeExecute s).i = s.i := by simp [beforeExecute]
@[simp] theorem beforeExecute_stack (s : State) : (beforeExecute s).stack = s.stack := by simp [beforeExecute]
@[simp] theorem beforeExecute_sp (s : State) : (beforeExecute s).sp = s.sp := by simp [beforeExecute]
@[simp] theorem beforeExecute_fb (s : State) : (beforeExecute s).fb = s.fb := by simp [beforeExecute]
@[simp] theorem beforeExecute_redraw (s : State) : (beforeExecute s).redraw = s.redraw := by simp [beforeExecute]
@[simp] theorem beforeExecute_keys (s : State) : (beforeExecute s).keys = s.keys := by simp [beforeExecute]
@[simp] theorem beforeExecute_fault (s : State) : (beforeExecute s).fault = s.fault := by simp [beforeExecute]
@[simp] theorem beforeExecute_mem (s : State) : (beforeExecute s).mem = s.mem := by simp [beforeExecute]
@[simp] theorem beforeExecute_cfg (s : State) : (beforeExecute s).cfg = s.cfg := by simp [beforeExecute]
@[simp] theorem beforeExecute_randIn (s : State) : (beforeExecute s).randIn = s.randIn := by simp [beforeExecute]
@[simp] theorem beforeExecute_draws (s : State) : (beforeExecute s).draws = s.draws := by simp [beforeExecute]

theorem beforeExecute_dt (s : State) :
    (beforeExecute s).dt = if countsDownAt s.cfg.timerDivisor (s.tick + 1) then countDown s.dt else s.dt := by
  rw [beforeExecute, tickPhase_dt]
  rfl

theorem beforeExecute_st (s : State) :
    (beforeExecute s).st = if countsDownAt s.cfg.timerDivisor (s.tick + 1) then countDown s.st else s.st := by
  rw [beforeExecute, tickPhase_st]
  rfl

theorem countDown_toNat (b : Byte) : (countDown b).toNat = b.toNat - 1 := by
  unfold countDown
  split
  · subst b; rfl
  · have : b.toNat ≠ 0 := fun h => by simp_all [← BitVec.toNat_inj]
    bv_omega

/-! ## The skip -/

theorem skipIf_pc (cond : Bool) (s : State) : (skipIf cond s).pc = if cond then s.pc + 2 else s.pc := by
  cases cond <;> rfl

/-- A skip changes PC only. -/
theorem skipIf_eq (cond : Bool) (s : State) : skipIf cond s = s.setPc (if cond then s.pc + 2 else s.pc) := by
  cases cond <;> rfl

@[simp] theorem skipIf_v (cond : Bool) (s : State) : (skipIf cond s).v = s.v := by cases cond <;> rfl
@[simp] theorem skipIf_i (cond : Bool) (s : State) : (skipIf cond s).i = s.i := by cases cond <;> rfl
@[simp] theorem skipIf_stack (cond : Bool) (s : State) : (skipIf cond s).stack = s.stack := by cases cond <;> rfl
@[simp] theorem skipIf_sp (cond : Bool) (s : State) : (skipIf cond s).sp = s.sp := by cases cond <;> rfl
@[simp] theorem skipIf_dt (cond : Bool) (s : State) : (skipIf cond s).dt = s.dt := by cases cond <;> rfl
@[simp] theorem skipIf_st (cond : Bool) (s : State) : (skipIf cond s).st = s.st := by cases cond <;> rfl
@[simp] theorem skipIf_tick (cond : Bool) (s : State) : (skipIf cond s).tick = s.tick := by cases cond <;> rfl
@[simp] theorem skipIf_fb (cond : Bool) (s : State) : (skipIf cond s).fb = s.fb := by cases cond <;> rfl
@[simp] theorem skipIf_redraw (cond : Bool) (s : State) : (skipIf cond s).redraw = s.redraw := by cases cond <;> rfl
@[simp] theorem skipIf_keys (cond : Bool) (s : State) : (skipIf cond s).keys = s.keys := by cases cond <;> rfl
@[simp] theorem skipIf_fault (cond : Bool) (s : State) : (skipIf cond s).fault = s.fault := by cases cond <;> rfl
@[simp] theorem skipIf_mem (cond : Bool) (s : State) : (skipIf cond s).mem = s.mem := by cases cond <;> rfl
@[simp] theorem skipIf_cfg (cond : Bool) (s : State) : (skipIf cond s).cfg = s.cfg := by cases cond <;> rfl
@[simp] theorem skipIf_randIn (cond : Bool) (s : State) : (skipIf cond s).randIn = s.randIn := by cases cond <;> rfl
@[simp] theorem skipIf_draws (cond : Bool) (s : State) : (skipIf cond s).draws = s.draws := by cases cond <;> rfl

/-! ## Result and flag -/

/-- With x not F, Vx holds the result and VF the flag, whatever FLAG_ORDER is (R181). -/
theorem writeResultFlag_reg (x : Nibble) (res f : Byte) (s : State) (hx : x ≠ vf) (r : Nibble) :
    (writeResultFlag x res f s).reg r = if r = vf then f else if r = x then res else s.reg r := by
  unfold writeResultFlag
  split <;> simp only [State.reg_setReg] <;> by_cases h1 : r = vf <;> by_cases h2 : r = x <;> simp_all

/-- With x = F, FLAG_ORDER decides what VF holds (R181). -/
theorem writeResultFlag_reg_vf (res f : Byte) (s : State) (r : Nibble) :
    (writeResultFlag vf res f s).reg r =
      if r = vf then (if s.cfg.flagOrder = .flagLast then f else res) else s.reg r := by
  unfold writeResultFlag
  split <;> rename_i h <;> by_cases h1 : r = vf <;> simp_all [State.reg_setReg]

@[simp] theorem writeResultFlag_pc (x : Nibble) (res f : Byte) (s : State) : (writeResultFlag x res f s).pc = s.pc := by
  unfold writeResultFlag; split <;> rfl
@[simp] theorem writeResultFlag_i (x : Nibble) (res f : Byte) (s : State) : (writeResultFlag x res f s).i = s.i := by
  unfold writeResultFlag; split <;> rfl
@[simp] theorem writeResultFlag_stack (x : Nibble) (res f : Byte) (s : State) : (writeResultFlag x res f s).stack = s.stack := by
  unfold writeResultFlag; split <;> rfl
@[simp] theorem writeResultFlag_sp (x : Nibble) (res f : Byte) (s : State) : (writeResultFlag x res f s).sp = s.sp := by
  unfold writeResultFlag; split <;> rfl
@[simp] theorem writeResultFlag_dt (x : Nibble) (res f : Byte) (s : State) : (writeResultFlag x res f s).dt = s.dt := by
  unfold writeResultFlag; split <;> rfl
@[simp] theorem writeResultFlag_st (x : Nibble) (res f : Byte) (s : State) : (writeResultFlag x res f s).st = s.st := by
  unfold writeResultFlag; split <;> rfl
@[simp] theorem writeResultFlag_tick (x : Nibble) (res f : Byte) (s : State) : (writeResultFlag x res f s).tick = s.tick := by
  unfold writeResultFlag; split <;> rfl
@[simp] theorem writeResultFlag_fb (x : Nibble) (res f : Byte) (s : State) : (writeResultFlag x res f s).fb = s.fb := by
  unfold writeResultFlag; split <;> rfl
@[simp] theorem writeResultFlag_redraw (x : Nibble) (res f : Byte) (s : State) : (writeResultFlag x res f s).redraw = s.redraw := by
  unfold writeResultFlag; split <;> rfl
@[simp] theorem writeResultFlag_keys (x : Nibble) (res f : Byte) (s : State) : (writeResultFlag x res f s).keys = s.keys := by
  unfold writeResultFlag; split <;> rfl
@[simp] theorem writeResultFlag_fault (x : Nibble) (res f : Byte) (s : State) : (writeResultFlag x res f s).fault = s.fault := by
  unfold writeResultFlag; split <;> rfl
@[simp] theorem writeResultFlag_mem (x : Nibble) (res f : Byte) (s : State) : (writeResultFlag x res f s).mem = s.mem := by
  unfold writeResultFlag; split <;> rfl
@[simp] theorem writeResultFlag_cfg (x : Nibble) (res f : Byte) (s : State) : (writeResultFlag x res f s).cfg = s.cfg := by
  unfold writeResultFlag; split <;> rfl
@[simp] theorem writeResultFlag_randIn (x : Nibble) (res f : Byte) (s : State) : (writeResultFlag x res f s).randIn = s.randIn := by
  unfold writeResultFlag; split <;> rfl
@[simp] theorem writeResultFlag_draws (x : Nibble) (res f : Byte) (s : State) : (writeResultFlag x res f s).draws = s.draws := by
  unfold writeResultFlag; split <;> rfl

/-! ## Memory blocks -/

@[simp] theorem writeBlock_v (s : State) (bytes : List Byte) : (writeBlock s bytes).v = s.v := rfl
@[simp] theorem writeBlock_pc (s : State) (bytes : List Byte) : (writeBlock s bytes).pc = s.pc := rfl
@[simp] theorem writeBlock_i (s : State) (bytes : List Byte) : (writeBlock s bytes).i = s.i := rfl
@[simp] theorem writeBlock_stack (s : State) (bytes : List Byte) : (writeBlock s bytes).stack = s.stack := rfl
@[simp] theorem writeBlock_sp (s : State) (bytes : List Byte) : (writeBlock s bytes).sp = s.sp := rfl
@[simp] theorem writeBlock_dt (s : State) (bytes : List Byte) : (writeBlock s bytes).dt = s.dt := rfl
@[simp] theorem writeBlock_st (s : State) (bytes : List Byte) : (writeBlock s bytes).st = s.st := rfl
@[simp] theorem writeBlock_tick (s : State) (bytes : List Byte) : (writeBlock s bytes).tick = s.tick := rfl
@[simp] theorem writeBlock_fb (s : State) (bytes : List Byte) : (writeBlock s bytes).fb = s.fb := rfl
@[simp] theorem writeBlock_redraw (s : State) (bytes : List Byte) : (writeBlock s bytes).redraw = s.redraw := rfl
@[simp] theorem writeBlock_keys (s : State) (bytes : List Byte) : (writeBlock s bytes).keys = s.keys := rfl
@[simp] theorem writeBlock_fault (s : State) (bytes : List Byte) : (writeBlock s bytes).fault = s.fault := rfl
@[simp] theorem writeBlock_cfg (s : State) (bytes : List Byte) : (writeBlock s bytes).cfg = s.cfg := rfl
@[simp] theorem writeBlock_randIn (s : State) (bytes : List Byte) : (writeBlock s bytes).randIn = s.randIn := rfl
@[simp] theorem writeBlock_draws (s : State) (bytes : List Byte) : (writeBlock s bytes).draws = s.draws := rfl

@[simp] theorem loadRegs_pc (s : State) (bytes : List Byte) : (loadRegs s bytes).pc = s.pc := rfl
@[simp] theorem loadRegs_i (s : State) (bytes : List Byte) : (loadRegs s bytes).i = s.i := rfl
@[simp] theorem loadRegs_stack (s : State) (bytes : List Byte) : (loadRegs s bytes).stack = s.stack := rfl
@[simp] theorem loadRegs_sp (s : State) (bytes : List Byte) : (loadRegs s bytes).sp = s.sp := rfl
@[simp] theorem loadRegs_dt (s : State) (bytes : List Byte) : (loadRegs s bytes).dt = s.dt := rfl
@[simp] theorem loadRegs_st (s : State) (bytes : List Byte) : (loadRegs s bytes).st = s.st := rfl
@[simp] theorem loadRegs_tick (s : State) (bytes : List Byte) : (loadRegs s bytes).tick = s.tick := rfl
@[simp] theorem loadRegs_fb (s : State) (bytes : List Byte) : (loadRegs s bytes).fb = s.fb := rfl
@[simp] theorem loadRegs_redraw (s : State) (bytes : List Byte) : (loadRegs s bytes).redraw = s.redraw := rfl
@[simp] theorem loadRegs_keys (s : State) (bytes : List Byte) : (loadRegs s bytes).keys = s.keys := rfl
@[simp] theorem loadRegs_fault (s : State) (bytes : List Byte) : (loadRegs s bytes).fault = s.fault := rfl
@[simp] theorem loadRegs_mem (s : State) (bytes : List Byte) : (loadRegs s bytes).mem = s.mem := rfl
@[simp] theorem loadRegs_cfg (s : State) (bytes : List Byte) : (loadRegs s bytes).cfg = s.cfg := rfl
@[simp] theorem loadRegs_randIn (s : State) (bytes : List Byte) : (loadRegs s bytes).randIn = s.randIn := rfl
@[simp] theorem loadRegs_draws (s : State) (bytes : List Byte) : (loadRegs s bytes).draws = s.draws := rfl

theorem writeBlock_readByte (s : State) (bytes : List Byte) (a : Nat) :
    (writeBlock s bytes).readByte a =
      if s.i.toNat ≤ a ∧ a < s.i.toNat + bytes.length then bytes.getD (a - s.i.toNat) 0 else s.readByte a :=
  Memory.read_writeBytes s.mem (effAddr s 0) a bytes

theorem loadRegs_reg (s : State) (bytes : List Byte) (r : Nibble) :
    (loadRegs s bytes).reg r = bytes.getD r.toNat (s.reg r) := by
  simp [loadRegs, State.reg]

theorem length_readBlock (s : State) (n : Nat) : (readBlock s n).length = n := Memory.length_readBytes _ _ _

theorem getD_readBlock (s : State) (n k : Nat) (d : Byte) :
    (readBlock s n).getD k d = if k < n then s.readByte (s.i.toNat + k) else d :=
  Memory.getD_readBytes _ _ _ _ _

theorem length_regBlock (s : State) (x : Nibble) : (regBlock s x).length = x.toNat + 1 := by
  have := x.isLt
  simp [regBlock]
  omega

theorem getD_regBlock (s : State) (x r : Nibble) (h : r.toNat ≤ x.toNat) (d : Byte) :
    (regBlock s x).getD r.toNat d = s.reg r := by
  have hr := r.isLt
  simp [regBlock, State.reg, show r.toNat < x.toNat + 1 by omega, show r.toNat < 16 by omega]

theorem rangeInBounds_iff (s : State) (n : Nat) :
    rangeInBounds s n = true ↔ n = 0 ∨ s.i.toNat + (n - 1) ≤ 0xFFF := by
  unfold rangeInBounds
  exact decide_eq_true_iff

/-! ## The random byte -/

@[simp] theorem drawRand_v (s : State) : (drawRand s).2.v = s.v := by unfold drawRand; split <;> rfl
@[simp] theorem drawRand_pc (s : State) : (drawRand s).2.pc = s.pc := by unfold drawRand; split <;> rfl
@[simp] theorem drawRand_i (s : State) : (drawRand s).2.i = s.i := by unfold drawRand; split <;> rfl
@[simp] theorem drawRand_stack (s : State) : (drawRand s).2.stack = s.stack := by unfold drawRand; split <;> rfl
@[simp] theorem drawRand_sp (s : State) : (drawRand s).2.sp = s.sp := by unfold drawRand; split <;> rfl
@[simp] theorem drawRand_dt (s : State) : (drawRand s).2.dt = s.dt := by unfold drawRand; split <;> rfl
@[simp] theorem drawRand_st (s : State) : (drawRand s).2.st = s.st := by unfold drawRand; split <;> rfl
@[simp] theorem drawRand_tick (s : State) : (drawRand s).2.tick = s.tick := by unfold drawRand; split <;> rfl
@[simp] theorem drawRand_fb (s : State) : (drawRand s).2.fb = s.fb := by unfold drawRand; split <;> rfl
@[simp] theorem drawRand_redraw (s : State) : (drawRand s).2.redraw = s.redraw := by unfold drawRand; split <;> rfl
@[simp] theorem drawRand_keys (s : State) : (drawRand s).2.keys = s.keys := by unfold drawRand; split <;> rfl
@[simp] theorem drawRand_fault (s : State) : (drawRand s).2.fault = s.fault := by unfold drawRand; split <;> rfl
@[simp] theorem drawRand_mem (s : State) : (drawRand s).2.mem = s.mem := by unfold drawRand; split <;> rfl
@[simp] theorem drawRand_cfg (s : State) : (drawRand s).2.cfg = s.cfg := by unfold drawRand; split <;> rfl

@[simp] theorem drawRand_randIn (s : State) : (drawRand s).2.randIn = s.randIn := by
  unfold drawRand; split <;> simp_all

theorem drawRand_supplied (s : State) (b : Byte) (h : s.randIn = some b) : drawRand s = (b, s) := by
  simp [drawRand, h]

theorem drawRand_free (s : State) (h : s.randIn = none) :
    drawRand s = (Config.freeByte s.draws, { s with draws := s.draws + 1 }) := by
  simp [drawRand, h]

/-! ## Taking a fault and committing -/

/-- A step's instruction that raised nothing commits its state, without the step's random byte. -/
theorem commit_next (s u : State) (h : u.fault = none) : commit s (.next u) = .next u.clearRandIn := by
  simp [commit, h]

/-- A step's instruction that raised a fault changes the fault register of the state the step began at, nothing else. -/
theorem commit_raised (s u : State) (c : Fault) (h : u.fault = some c) : commit s (.next u) = .next (s.raise c) := by
  simp [commit, h, raiseFault]

theorem commit_next_iff (s t : State) (r : Result) :
    commit s r = .next t ↔
      ∃ u, r = .next u ∧ ((u.fault = none ∧ t = u.clearRandIn) ∨ ∃ c, u.fault = some c ∧ t = s.raise c) := by
  cases r with
  | next u =>
    cases h : u.fault with
    | none => simp [commit, h, eq_comm]
    | some c => simp [commit, h, raiseFault, eq_comm]
  | fault c => simp [commit]
  | refused c => simp [commit]

end Sys2Proof.Machine
end

