-- ==== Sys2Proof/Laws/PerInstr.lean ====
section
/-! SUPPORT. A law of every instruction as syntax, one lemma per constructor: its encoding selects its own row of
spec/opcode_table.json (spec/30_encoding.md R108). -/

namespace Sys2Proof.Laws.EncodeSelectsRow

/-- The encoded word matches the mask and pattern of the instruction's row. -/
def Statement (i : Instr) : Prop := i.row.selects (encode i) = true

theorem ret : Statement .ret := rfl

theorem jp : ∀ (nnn : Addr12), Statement (.jp nnn) := fun _ =>
  (selects_F000 0x1 _).mpr (opField_nnn _ _)

theorem call : ∀ (nnn : Addr12), Statement (.call nnn) := fun _ =>
  (selects_F000 0x2 _).mpr (opField_nnn _ _)

theorem seVxNn : ∀ (x : Nibble) (nn : Byte), Statement (.seVxNn x nn) := fun _ _ =>
  (selects_F000 0x3 _).mpr (opField_xnn _ _ _)

theorem sneVxNn : ∀ (x : Nibble) (nn : Byte), Statement (.sneVxNn x nn) := fun _ _ =>
  (selects_F000 0x4 _).mpr (opField_xnn _ _ _)

theorem seVxVy : ∀ (x y : Nibble), Statement (.seVxVy x y) := fun _ _ =>
  (selects_F00F 0x5 0x0 _).mpr ⟨opField_xyn _ _ _ _, nField_xyn _ _ _ _⟩

theorem sneVxVy : ∀ (x y : Nibble), Statement (.sneVxVy x y) := fun _ _ =>
  (selects_F00F 0x9 0x0 _).mpr ⟨opField_xyn _ _ _ _, nField_xyn _ _ _ _⟩

theorem jpV0Nnn : ∀ (nnn : Addr12), Statement (.jpV0Nnn nnn) := fun _ =>
  (selects_F000 0xB _).mpr (opField_nnn _ _)

theorem ldVxNn : ∀ (x : Nibble) (nn : Byte), Statement (.ldVxNn x nn) := fun _ _ =>
  (selects_F000 0x6 _).mpr (opField_xnn _ _ _)

theorem addVxNn : ∀ (x : Nibble) (nn : Byte), Statement (.addVxNn x nn) := fun _ _ =>
  (selects_F000 0x7 _).mpr (opField_xnn _ _ _)

theorem ldVxVy : ∀ (x y : Nibble), Statement (.ldVxVy x y) := fun _ _ =>
  (selects_F00F 0x8 0x0 _).mpr ⟨opField_xyn _ _ _ _, nField_xyn _ _ _ _⟩

theorem orVxVy : ∀ (x y : Nibble), Statement (.orVxVy x y) := fun _ _ =>
  (selects_F00F 0x8 0x1 _).mpr ⟨opField_xyn _ _ _ _, nField_xyn _ _ _ _⟩

theorem andVxVy : ∀ (x y : Nibble), Statement (.andVxVy x y) := fun _ _ =>
  (selects_F00F 0x8 0x2 _).mpr ⟨opField_xyn _ _ _ _, nField_xyn _ _ _ _⟩

theorem xorVxVy : ∀ (x y : Nibble), Statement (.xorVxVy x y) := fun _ _ =>
  (selects_F00F 0x8 0x3 _).mpr ⟨opField_xyn _ _ _ _, nField_xyn _ _ _ _⟩

theorem addVxVy : ∀ (x y : Nibble), Statement (.addVxVy x y) := fun _ _ =>
  (selects_F00F 0x8 0x4 _).mpr ⟨opField_xyn _ _ _ _, nField_xyn _ _ _ _⟩

theorem subVxVy : ∀ (x y : Nibble), Statement (.subVxVy x y) := fun _ _ =>
  (selects_F00F 0x8 0x5 _).mpr ⟨opField_xyn _ _ _ _, nField_xyn _ _ _ _⟩

theorem shrVx : ∀ (x y : Nibble), Statement (.shrVx x y) := fun _ _ =>
  (selects_F00F 0x8 0x6 _).mpr ⟨opField_xyn _ _ _ _, nField_xyn _ _ _ _⟩

theorem subnVxVy : ∀ (x y : Nibble), Statement (.subnVxVy x y) := fun _ _ =>
  (selects_F00F 0x8 0x7 _).mpr ⟨opField_xyn _ _ _ _, nField_xyn _ _ _ _⟩

theorem shlVx : ∀ (x y : Nibble), Statement (.shlVx x y) := fun _ _ =>
  (selects_F00F 0x8 0xE _).mpr ⟨opField_xyn _ _ _ _, nField_xyn _ _ _ _⟩

theorem rnd : ∀ (x : Nibble) (nn : Byte), Statement (.rnd x nn) := fun _ _ =>
  (selects_F000 0xC _).mpr (opField_xnn _ _ _)

theorem ldINnn : ∀ (nnn : Addr12), Statement (.ldINnn nnn) := fun _ =>
  (selects_F000 0xA _).mpr (opField_nnn _ _)

theorem addIVx : ∀ (x : Nibble), Statement (.addIVx x) := fun _ =>
  (selects_F0FF 0xF 0x1 0xE _).mpr ⟨opField_xnn _ _ _, yField_xnn _ _ _, nField_xnn _ _ _⟩

theorem ldFVx : ∀ (x : Nibble), Statement (.ldFVx x) := fun _ =>
  (selects_F0FF 0xF 0x2 0x9 _).mpr ⟨opField_xnn _ _ _, yField_xnn _ _ _, nField_xnn _ _ _⟩

theorem ldBVx : ∀ (x : Nibble), Statement (.ldBVx x) := fun _ =>
  (selects_F0FF 0xF 0x3 0x3 _).mpr ⟨opField_xnn _ _ _, yField_xnn _ _ _, nField_xnn _ _ _⟩

theorem ldMemVx : ∀ (x : Nibble), Statement (.ldMemVx x) := fun _ =>
  (selects_F0FF 0xF 0x5 0x5 _).mpr ⟨opField_xnn _ _ _, yField_xnn _ _ _, nField_xnn _ _ _⟩

theorem ldVxMem : ∀ (x : Nibble), Statement (.ldVxMem x) := fun _ =>
  (selects_F0FF 0xF 0x6 0x5 _).mpr ⟨opField_xnn _ _ _, yField_xnn _ _ _, nField_xnn _ _ _⟩

theorem cls : Statement .cls := rfl

theorem drw : ∀ (x y n : Nibble), Statement (.drw x y n) := fun _ _ _ =>
  (selects_F000 0xD _).mpr (opField_xyn _ _ _ _)

theorem skp : ∀ (x : Nibble), Statement (.skp x) := fun _ =>
  (selects_F0FF 0xE 0x9 0xE _).mpr ⟨opField_xnn _ _ _, yField_xnn _ _ _, nField_xnn _ _ _⟩

theorem sknp : ∀ (x : Nibble), Statement (.sknp x) := fun _ =>
  (selects_F0FF 0xE 0xA 0x1 _).mpr ⟨opField_xnn _ _ _, yField_xnn _ _ _, nField_xnn _ _ _⟩

theorem ldVxDt : ∀ (x : Nibble), Statement (.ldVxDt x) := fun _ =>
  (selects_F0FF 0xF 0x0 0x7 _).mpr ⟨opField_xnn _ _ _, yField_xnn _ _ _, nField_xnn _ _ _⟩

theorem ldVxK : ∀ (x : Nibble), Statement (.ldVxK x) := fun _ =>
  (selects_F0FF 0xF 0x0 0xA _).mpr ⟨opField_xnn _ _ _, yField_xnn _ _ _, nField_xnn _ _ _⟩

theorem ldDtVx : ∀ (x : Nibble), Statement (.ldDtVx x) := fun _ =>
  (selects_F0FF 0xF 0x1 0x5 _).mpr ⟨opField_xnn _ _ _, yField_xnn _ _ _, nField_xnn _ _ _⟩

theorem ldStVx : ∀ (x : Nibble), Statement (.ldStVx x) := fun _ =>
  (selects_F0FF 0xF 0x1 0x8 _).mpr ⟨opField_xnn _ _ _, yField_xnn _ _ _, nField_xnn _ _ _⟩

theorem nop0 : ∀ (w : Addr12), Statement (.nop0 w) := fun _ =>
  (selects_F000 0x0 _).mpr (opField_nnn _ _)

theorem nop5 : ∀ (w : Addr12), Statement (.nop5 w) := fun _ =>
  (selects_F000 0x5 _).mpr (opField_nnn _ _)

theorem nop8 : ∀ (w : Addr12), Statement (.nop8 w) := fun _ =>
  (selects_F000 0x8 _).mpr (opField_nnn _ _)

theorem nop9 : ∀ (w : Addr12), Statement (.nop9 w) := fun _ =>
  (selects_F000 0x9 _).mpr (opField_nnn _ _)

theorem nopE : ∀ (w : Addr12), Statement (.nopE w) := fun _ =>
  (selects_F000 0xE _).mpr (opField_nnn _ _)

theorem nopF : ∀ (w : Addr12), Statement (.nopF w) := fun _ =>
  (selects_F000 0xF _).mpr (opField_nnn _ _)

end Sys2Proof.Laws.EncodeSelectsRow
end

