-- ==== Sys2Proof/Laws/Step.lean ====
section
/-! SUPPORT. What one step can do, said once. -/

namespace Sys2Proof.Machine

/-- Every step that answers a next state began in RUN, and either its fetch was out of bounds, or its word decoded to an
instruction whose next state it commits. -/
theorem step_next_cases {s t : State} (h : step s = .next t) :
    s.fault = none ∧
      ((0xFFE < s.pc.toNat ∧ t = s.raise .fetchOutOfBounds) ∨
       ∃ i u, s.pc.toNat ≤ 0xFFE ∧ decode s.cfg.decode59 (fetchWord s) = .ok i ∧
         exec i (beforeExecute s) = .next u ∧
         ((u.fault = none ∧ t = u.clearRandIn) ∨ ∃ c, u.fault = some c ∧ t = s.raise c)) := by
  unfold step at h
  split at h
  · cases h
  · rename_i hf
    refine ⟨hf, ?_⟩
    split at h
    · rename_i hb
      right
      split at h
      · rename_i i hd
        obtain ⟨u, hu, hc⟩ := (commit_next_iff s t _).mp h
        exact ⟨i, u, by simpa [fetchInBounds] using hb, hd, hu, hc⟩
      · rename_i r _
        cases r <;> simp [refuseWord] at h
    · rename_i hb
      left
      simp only [raiseFault, Host.Outcome.next.injEq] at h
      simp only [fetchInBounds, decide_eq_true_eq] at hb
      exact ⟨by omega, h.symm⟩

/-- The next fetch reads the word `withFetchWord` stored. -/
theorem fetchWord_withFetchWord (s : State) (w : Word) (h : s.pc.toNat ≤ 0xFFE) :
    fetchWord (s.withFetchWord 16 w.toNat) = w := by
  have hb : fetchInBounds s = true := by simpa [fetchInBounds] using h
  have hw : BitVec.ofNat 16 (w.toNat % 2 ^ 16) = w := by
    rw [Nat.mod_eq_of_lt w.isLt]
    simp
  have hr : ∀ a, (s.withFetchWord 16 w.toNat).readByte a =
      if s.pc.toNat ≤ a ∧ a < s.pc.toNat + 2 then [hiByte w, loByte w].getD (a - s.pc.toNat) 0 else s.readByte a := by
    intro a
    simp only [State.withFetchWord, hb, if_true, hw]
    exact Memory.read_writeBytes _ _ _ _
  have hpc : (s.withFetchWord 16 w.toNat).pc = s.pc := by simp only [State.withFetchWord, hb, if_true]
  rw [fetchWord, hpc, hr, hr, if_pos (by omega), if_pos (by omega)]
  simpa using wordOfBytes_hi_lo w

/-- Storing a word to fetch keeps memory canonical. -/
theorem withFetchWord_wf (s : State) (nbits w : Nat) (h : s.mem.wf = true) :
    (s.withFetchWord nbits w).mem.wf = true := by
  simp only [State.withFetchWord]
  split
  · rename_i hb
    simp only [fetchInBounds, decide_eq_true_eq] at hb
    exact Memory.wf_writeBytes _ _ _ (show s.pc.toNat + 2 ≤ 4096 by omega) h
  · exact h

end Sys2Proof.Machine
end

