-- ==== Sys2Proof/Tests/Slice0.lean ====
section
/-! SUPPORT. The model's own tests: ill-formed terms the check refuses, one word per constructor written out from its
encoding (spec/30_encoding.md R108, R112), one-step vectors of spec/95_test_vectors.md (named in each comment), and a
witness for the hypotheses of every statement. -/

namespace Sys2Proof.Tests

open Sys2Proof.Machine Sys2Proof.Claims

/-! ## WellFormed: one ill-formed term per check -/

theorem test_wf_refuses_nop0_cls : (Instr.nop0 0x0E0).wf = false := by decide
theorem test_wf_refuses_nop0_ret : (Instr.nop0 0x0EE).wf = false := by decide
theorem test_wf_refuses_nop5 : (Instr.nop5 0x120).wf = false := by decide
theorem test_wf_refuses_nop8 : (Instr.nop8 0x12E).wf = false := by decide
theorem test_wf_refuses_nop9 : (Instr.nop9 0x120).wf = false := by decide
theorem test_wf_refuses_nopE : (Instr.nopE 0x39E).wf = false := by decide
theorem test_wf_refuses_nopF : (Instr.nopF 0x365).wf = false := by decide

/-! ## Decode: a word of every constructor, bit by bit from the pattern column of R108 -/

theorem test_decode_control :
    decode .strictNop 0b0000000011101110 = .ok .ret ∧ decode .strictNop 0b0001111101001100 = .ok (.jp 0xF4C) ∧
    decode .strictNop 0b0010101000000000 = .ok (.call 0xA00) ∧
    decode .strictNop 0b0011001101000010 = .ok (.seVxNn 3 0x42) ∧
    decode .strictNop 0b0100001101000001 = .ok (.sneVxNn 3 0x41) ∧
    decode .strictNop 0b0101000100100000 = .ok (.seVxVy 1 2) ∧
    decode .strictNop 0b1001000100100000 = .ok (.sneVxVy 1 2) ∧
    decode .strictNop 0b1011010100100000 = .ok (.jpV0Nnn 0x520) := by decide

theorem test_decode_alu :
    decode .strictNop 0b0110101000101011 = .ok (.ldVxNn 0xA 0x2B) ∧
    decode .strictNop 0b0111000111101100 = .ok (.addVxNn 1 0xEC) ∧
    decode .strictNop 0b1000000100100000 = .ok (.ldVxVy 1 2) ∧ decode .strictNop 0b1000000100100001 = .ok (.orVxVy 1 2) ∧
    decode .strictNop 0b1000000100100010 = .ok (.andVxVy 1 2) ∧ decode .strictNop 0b1000000100100011 = .ok (.xorVxVy 1 2) ∧
    decode .strictNop 0b1000000100100100 = .ok (.addVxVy 1 2) ∧ decode .strictNop 0b1000000100100101 = .ok (.subVxVy 1 2) ∧
    decode .strictNop 0b1000000100100110 = .ok (.shrVx 1 2) ∧ decode .strictNop 0b1000000100100111 = .ok (.subnVxVy 1 2) ∧
    decode .strictNop 0b1000000100101110 = .ok (.shlVx 1 2) ∧ decode .strictNop 0b1100001100001111 = .ok (.rnd 3 0x0F) := by
  decide

theorem test_decode_index_memory :
    decode .strictNop 0b1010000100100011 = .ok (.ldINnn 0x123) ∧ decode .strictNop 0b1111001000011110 = .ok (.addIVx 2) ∧
    decode .strictNop 0b1111101000101001 = .ok (.ldFVx 0xA) ∧ decode .strictNop 0b1111000100110011 = .ok (.ldBVx 1) ∧
    decode .strictNop 0b1111001001010101 = .ok (.ldMemVx 2) ∧ decode .strictNop 0b1111001001100101 = .ok (.ldVxMem 2) := by
  decide

theorem test_decode_display_keys_timers :
    decode .strictNop 0b0000000011100000 = .ok .cls ∧ decode .strictNop 0b1101000100100101 = .ok (.drw 1 2 5) ∧
    decode .strictNop 0b1110010010011110 = .ok (.skp 4) ∧ decode .strictNop 0b1110010010100001 = .ok (.sknp 4) ∧
    decode .strictNop 0b1111001100000111 = .ok (.ldVxDt 3) ∧ decode .strictNop 0b1111001100001010 = .ok (.ldVxK 3) ∧
    decode .strictNop 0b1111001000010101 = .ok (.ldDtVx 2) ∧ decode .strictNop 0b1111001000011000 = .ok (.ldStVx 2) := by
  decide

/-- CY2, CY3, CY4 and R109's refusal. -/
theorem test_decode_no_ops :
    decode .strictNop 0x0123 = .ok (.nop0 0x123) ∧ decode .strictNop 0x00FF = .ok (.nop0 0x0FF) ∧
    decode .strictNop 0x5121 = .ok (.nop5 0x121) ∧ decode .ignoreLowNibble 0x5121 = .ok (.seVxVy 1 2) ∧
    decode .refuse 0x5121 = .reject (.nibble59 0x5121) ∧
    decode .strictNop 0x8008 = .ok (.nop8 0x008) ∧ decode .strictNop 0x9001 = .ok (.nop9 0x001) ∧
    decode .strictNop 0xE000 = .ok (.nopE 0x000) ∧ decode .strictNop 0xF000 = .ok (.nopF 0x000) := by
  decide

theorem test_decode_bytes :
    decodeBytes .strictNop [0x1A, 0xFA, 0x00] = .ok (.jp 0xAFA, [0x00]) ∧
    decodeBytes .strictNop [0x1A] = .reject .truncated ∧ decodeTableWord 16 0x1AFA = some (.jp 0xAFA) := by decide

/-! ## One-step vectors -/

/-- The next state after one instruction in phase E, with a view of it. -/
def after {α : Type} (i : Instr) (s : State) (view : State → α) : Option α :=
  match exec i s with
  | .next t => some (view t)
  | .fault _ => none
  | .refused _ => none

/-- The next state after one whole step on a word stored at PC, with a view of it. -/
def stepped {α : Type} (w : Nat) (s : State) (view : State → α) : Option α :=
  match step (s.withFetchWord 16 w) with
  | .next t => some (view t)
  | .fault _ => none
  | .refused _ => none

/-- The reset state with two registers set. -/
def regs (x : Nibble) (a : Byte) (y : Nibble) (b : Byte) : State := (State.reset.setReg x a).setReg y b

/-- The reset state at another PC, SP, I. -/
def stAt (pc : Word) : State := { State.reset with pc := pc }
def stSp (sp : Fin 17) : State := { State.reset with sp := sp }
def stI (i : Word) : State := { State.reset with i := i }

/-- CY1. -/
theorem test_step_nop : stepped 0x0000 State.reset (fun t => (t.pc, t.tick, t.fault)) = some (0x202, 1, none) := by decide

/-- CY5, CY6. -/
theorem test_step_last_word : stepped 0x0000 (stAt 0xFFE) (fun t => (t.pc, t.fault)) = some (0x1000, none) := by decide
theorem test_step_fetch_fault :
    stepped 0x0000 (stAt 0xFFF) (fun t => (t.pc, t.tick, t.fault)) = some (0xFFF, 0, some .fetchOutOfBounds) := by decide

/-- CY10, CY12, CY13: the countdown comes before the instruction, and a fault undoes it. -/
theorem test_step_countdown_seen :
    stepped 0xF307 { State.reset with tick := 8, dt := 5 } (fun t => (t.reg 3, t.dt, t.tick)) = some (4, 4, 9) := by decide
theorem test_step_countdown_then_write :
    stepped 0xF215 { regs 2 0x20 3 0 with tick := 8, dt := 5, st := 1 } (fun t => (t.dt, t.st)) = some (0x20, 0) := by decide
theorem test_step_precise_fault :
    stepped 0x00EE { State.reset with tick := 8, dt := 5 } (fun t => (t.pc, t.tick, t.dt, t.fault)) =
      some (0x200, 8, 5, some .stackUnderflow) := by decide

/-- S8, F5. -/
theorem test_step_call :
    stepped 0x2A00 State.reset (fun t => (t.pc, t.sp, t.stack[0])) = some (0xA00, 1, 0x202) := by decide

/-- F7. -/
theorem test_step_call_full :
    stepped 0x2300 (stSp 16) (fun t => (t.pc, t.sp, t.fault)) = some (0x200, 16, some .stackOverflow) := by decide

/-- F1. -/
theorem test_step_ret :
    stepped 0x00EE { stSp 1 with stack := State.reset.stack.set 0 0x202 } (fun t => (t.pc, t.sp)) = some (0x202, 0) := by
  decide

/-- S2, F18. -/
theorem test_step_jumps :
    stepped 0x1F4C State.reset (·.pc) = some 0xF4C ∧ stepped 0xBFFF (regs 0 0xFF 5 0x80) (·.pc) = some 0x10FE := by decide

/-- F8 to F15. -/
theorem test_step_skips :
    stepped 0x3342 (regs 3 0x42 1 7) (·.pc) = some 0x204 ∧ stepped 0x3343 (regs 3 0x42 1 7) (·.pc) = some 0x202 ∧
    stepped 0x4342 (regs 3 0x42 1 7) (·.pc) = some 0x202 ∧ stepped 0x4300 (regs 3 0x42 1 7) (·.pc) = some 0x204 ∧
    stepped 0x5120 (regs 1 7 2 8) (·.pc) = some 0x202 ∧ stepped 0x5110 (regs 1 7 2 8) (·.pc) = some 0x204 ∧
    stepped 0x9120 (regs 1 7 2 8) (·.pc) = some 0x204 ∧ stepped 0x9110 (regs 1 7 2 8) (·.pc) = some 0x202 := by decide

/-- Vx and VF after 8xyN and its like. -/
def xvf (x : Nibble) (t : State) : Byte × Byte := (t.reg x, t.reg 0xF)

/-- A1 to A4. -/
theorem test_step_loads :
    stepped 0x6A2B State.reset (xvf 0xA) = some (0x2B, 0) ∧ stepped 0x71EC (regs 1 0xFA 0xF 0x55) (xvf 1) = some (0xE6, 0x55) ∧
    stepped 0x7F01 (regs 0xF 0xFF 1 0) (xvf 0xF) = some (0, 0) ∧ stepped 0x8120 (regs 2 0x33 1 0) (xvf 1) = some (0x33, 0) := by
  decide

/-- A5 to A7, with VF set before. -/
theorem test_step_logic :
    stepped 0x8121 ((regs 1 0xCA 2 0xAA).setReg 0xF 1) (xvf 1) = some (0xEA, 0) ∧
    stepped 0x8122 ((regs 1 0xCA 2 0xAA).setReg 0xF 1) (xvf 1) = some (0x8A, 0) ∧
    stepped 0x8123 ((regs 1 0xCA 2 0xAA).setReg 0xF 1) (xvf 1) = some (0x60, 0) := by decide

/-- A9, A11, A12, A15, A16, A22. -/
theorem test_step_add_sub :
    stepped 0x8124 (regs 1 0xFA 2 0xEF) (xvf 1) = some (0xE9, 1) ∧ stepped 0x8124 (regs 1 0xFF 2 0x01) (xvf 1) = some (0, 1) ∧
    stepped 0x8124 (regs 1 0xFF 2 0x00) (xvf 1) = some (0xFF, 0) ∧ stepped 0x8125 (regs 1 3 2 5) (xvf 1) = some (0xFE, 0) ∧
    stepped 0x8125 (regs 1 7 2 7) (xvf 1) = some (0, 1) ∧ stepped 0x8127 (regs 1 5 2 3) (xvf 1) = some (0xFE, 0) := by decide

/-- A18, A24: y is not read. -/
theorem test_step_shifts :
    stepped 0x8126 (regs 1 5 2 0xAA) (xvf 1) = some (2, 1) ∧ stepped 0x812E (regs 1 0x81 2 0xAA) (xvf 1) = some (2, 1) := by
  decide

/-- The other FLAG_ORDER. -/
def resultLast (s : State) : State := { s with cfg := { s.cfg with flagOrder := .resultLast } }

/-- A27, A28, A29, A31: x = F under both orders. -/
theorem test_step_flag_order :
    stepped 0x8F14 (regs 0xF 0xFF 1 1) (xvf 0xF) = some (1, 1) ∧
    stepped 0x8F14 (resultLast (regs 0xF 0xFF 1 1)) (xvf 0xF) = some (0, 0) ∧
    stepped 0x8FF6 (regs 0xF 2 1 0) (xvf 0xF) = some (0, 0) ∧
    stepped 0x8FF6 (resultLast (regs 0xF 2 1 0)) (xvf 0xF) = some (1, 1) ∧
    stepped 0x8F15 (resultLast (regs 0xF 0x10 1 0x20)) (xvf 0xF) = some (0xF0, 0xF0) ∧
    stepped 0x8F11 (resultLast (regs 0xF 0x0C 1 0x30)) (xvf 0xF) = some (0x3C, 0x3C) := by decide

/-- A32: y = F reads the old VF. -/
theorem test_step_old_vf : stepped 0x81F4 (regs 1 1 0xF 0xFF) (xvf 1) = some (0, 1) := by decide

/-- A33, A35. -/
theorem test_step_rnd :
    stepped 0xC30F { State.reset with randIn := some 0xB7 } (fun t => (t.reg 3, t.randIn)) = some (7, none) ∧
    stepped 0xC3FF { State.reset with randIn := some 0x5C } (fun t => (t.reg 3, t.randIn)) = some (0x5C, none) := by decide

/-- R55, R340: 0xFF supplied to a NOP step, 0x00 to the CxFF step after it: Vx = 0x00. -/
theorem test_random_byte_of_its_own_step :
    stepped 0x0000 (hostMove (.random 0xFF) State.reset) (fun t =>
      stepped 0xC3FF (hostMove (.random 0x00) t) (fun u => u.reg 3)) = some (some 0x00) := by decide

/-- A34: 0 whatever the free byte is. -/
theorem test_exec_rnd_zero : after (.rnd 3 0) State.reset (fun t => t.reg 3) = some 0 := by
  simp [after, exec, execRnd, State.reg, State.setReg]

/-- M1 to M6. -/
theorem test_step_index :
    stepped 0xA123 State.reset (·.i) = some 0x123 ∧ stepped 0xF21E { regs 2 0x10 3 0 with i := 0xFFA } (·.i) = some 0x100A ∧
    stepped 0xF21E { regs 2 2 3 0 with i := 0xFFFF } (·.i) = some 1 ∧ stepped 0xFA29 (regs 0xA 0xF 3 0) (·.i) = some 0x4B ∧
    stepped 0xFA29 { regs 0xA 0x10 3 0 with i := 0x300 } (·.i) = some 0x300 := by decide

/-- M3 under the other I_ADD_OVERFLOW. -/
theorem test_step_index_overflow :
    stepped 0xF21E { regs 2 2 3 0 with i := 0xFFFF, cfg := { defaultConfig with iAddOverflow := .fault } }
      (fun t => (t.i, t.pc, t.fault)) = some (0xFFFF, 0x200, some .indexOverflow) := by decide

/-- M7, M11. -/
theorem test_step_bcd :
    stepped 0xF133 { regs 1 254 2 0 with i := 0x300 } (fun t => (t.readByte 0x300, t.readByte 0x301, t.readByte 0x302)) =
      some (2, 5, 4) := by decide
theorem test_step_bcd_fault :
    stepped 0xF133 { regs 1 254 2 0 with i := 0xFFE } (fun t => (t.readByte 0xFFE, t.pc, t.fault)) =
      some (0, 0x200, some .memoryOutOfBounds) := by decide

/-- M12, M14. -/
theorem test_step_store :
    stepped 0xF155 { regs 0 1 1 2 with i := 0x400 } (fun t => (t.readByte 0x400, t.readByte 0x401, t.readByte 0x402, t.i)) =
      some (1, 2, 0, 0x400) := by decide
theorem test_step_store_fault : stepped 0xFF55 (stI 0xFF1) (·.fault) = some (some .memoryOutOfBounds) := by decide

/-- M15, M17. -/
theorem test_step_load :
    stepped 0xF165 { regs 2 7 3 0 with i := 0x400, mem := [(0x400, 9), (0x401, 8), (0x402, 5)] }
      (fun t => (t.reg 0, t.reg 1, t.reg 2, t.i)) = some (9, 8, 7, 0x400) := by decide
theorem test_step_load_fault : stepped 0xF065 (stI 0x1000) (·.fault) = some (some .memoryOutOfBounds) := by decide

/-- The set pixels of the two rows and columns a test names. -/
def px (t : State) (c : Fin 64) (r : Fin 32) : Bool := pixel t.fb c r

/-- DS5: two rows C0 at column 63, row 31 wrap across both edges. -/
theorem test_exec_drw_wraps :
    after (.drw 1 2 2) { regs 1 0xFF 2 0xFF with i := 0x300, mem := [(0x300, 0xC0), (0x301, 0xC0)] } (fun t =>
      ([px t 63 31, px t 0 31, px t 63 0, px t 0 0], [px t 62 31, px t 1 0], t.reg 0xF, t.redraw)) =
      some ([true, true, true, true], [false, false], 0, true) := by decide

/-- Glyph A is F0 90 F0 90 90 and glyph F ends in 80 (R357). -/
theorem test_default_font : defaultFont[0x32] = 0xF0 ∧ defaultFont[0x33] = 0x90 ∧ defaultFont[0x36] = 0x90 ∧
    defaultFont[0x4F] = 0x80 := by decide

/-- DS2's second draw, on the pixel of one byte: erased, VF = 1; DS6: the old VF is the column. -/
theorem test_exec_drw_collides :
    after (.drw 0xF 1 1) { regs 0xF 5 1 0 with i := 0x300, mem := [(0x300, 0x80)], fb := flipPixel Framebuffer.blank 5 0 }
      (fun t => (px t 5 0, t.reg 0xF)) = some (false, 1) := by decide

/-- DS9, DS10. -/
theorem test_exec_cls :
    after .cls { State.reset with fb := flipPixel Framebuffer.blank 5 0 } (fun t => (px t 5 0, t.redraw)) = some (false, true) := by
  decide

/-- The reset state with the keys of a list pressed. -/
def pressed (ks : List (Fin 16)) (s : State) : State := { s with keys := Vector.ofFn fun k => ks.contains k }

/-- K1 to K6. -/
theorem test_step_key_skips :
    stepped 0xE49E (pressed [7] (regs 4 7 1 0)) (·.pc) = some 0x204 ∧ stepped 0xE49E (regs 4 7 1 0) (·.pc) = some 0x202 ∧
    stepped 0xE49E (pressed [7] (regs 4 0x17 1 0)) (·.pc) = some 0x202 ∧ stepped 0xE4A1 (regs 4 7 1 0) (·.pc) = some 0x204 ∧
    stepped 0xE4A1 (pressed [7] (regs 4 7 1 0)) (·.pc) = some 0x202 ∧ stepped 0xE4A1 (regs 4 0x20 1 0) (·.pc) = some 0x202 := by
  decide

/-- K9, K13. -/
theorem test_step_key_wait :
    stepped 0xF30A (pressed [5, 9] State.reset) (fun t => (t.reg 3, t.pc)) = some (5, 0x202) ∧
    stepped 0xF30A { State.reset with tick := 8, dt := 3 } (fun t => (t.pc, t.dt, t.tick)) = some (0x200, 2, 9) := by decide

/-- K12. -/
theorem test_step_sound : stepped 0xF218 (regs 2 5 3 0) (·.st) = some 5 := by decide

/-- The program load: the last byte that fits (R356). -/
theorem test_load_program : (hostMove (.loadProgram [0x60, 0x05]) State.reset).mem = [(0x200, 0x60), (0x201, 0x05)] := by
  decide

/-- A step in HALTED, and the refusal of R133. -/
theorem test_halted : step (State.reset.raise .stackOverflow) = .fault .stackOverflow := by rfl
theorem test_refused :
    step ({ State.reset with cfg := { defaultConfig with decode59 := .refuse } }.withFetchWord 16 0x5121) =
      .refused (.undefinedLowNibble 0x5121) := by rfl

/-! ## Witnesses: a state and operands that meet the hypotheses of each statement -/

theorem witness_DecodeOfEncode : (Instr.nop5 0x121).wf = true ∧ (Instr.nop0 0x123).wf = true ∧
    (∀ w, Instr.nop0 0x123 ≠ .nop5 w ∧ Instr.nop0 0x123 ≠ .nop9 w) := ⟨by decide, by decide, fun _ => by simp⟩

theorem witness_DecodeSelectsTheTableRow : (⟨0xF00F, 0x800E⟩ : OpRow) ∈ specificRows ∧
    (⟨0xF00F, 0x800E⟩ : OpRow).selects 0x812E = true ∧ ∀ row ∈ specificRows, row.selects 0x812F = false := by decide

theorem witness_FamilySubOpcodes :
    (0x8#4 ∉ [0x0#4, 0x1#4, 0x2#4, 0x3#4, 0x4#4, 0x5#4, 0x6#4, 0x7#4, 0xE#4]) ∧ (0xA0#8 ∉ [0x9E#8, 0xA1#8]) ∧
    (0x66#8 ∉ [0x07#8, 0x0A#8, 0x15#8, 0x18#8, 0x1E#8, 0x29#8, 0x33#8, 0x55#8, 0x65#8]) := by decide

/-- A machine with DECODE_5_9 = refuse that fetches 0x9121. -/
def refusing : State := { State.reset with cfg := { defaultConfig with decode59 := .refuse } }.withFetchWord 16 0x9121

theorem witness_LowNibbleParameter : (1 : Nibble) ≠ 0 ∧ refusing.fault = none ∧ refusing.pc.toNat ≤ 0xFFE ∧
    refusing.cfg.decode59 = .refuse ∧ fetchWord refusing = 0x9#4 ++ 0x1#4 ++ 0x2#4 ++ 0x1#4 := by decide

/-- The reset state, or another one, with a word to fetch. -/
def fetching (w : Nat) (s : State) : State := s.withFetchWord 16 w

theorem witness_runs : runs (fetching 0x1F4C (stAt 0xFFE)) (.jp 0xF4C) := by
  refine ⟨?_, ?_, ?_⟩ <;> decide

theorem witness_FetchPast : (stAt 0xFFF).fault = none ∧ 0xFFE < (stAt 0xFFF).pc.toNat ∧
    ∃ t, step (stAt 0xFFF) = .next t := ⟨by decide, by decide, _, rfl⟩

theorem witness_Halted : (State.reset.raise .indexOverflow).fault = some .indexOverflow := by decide

theorem witness_FaultingStep : (fetching 0x00EE State.reset).fault = none ∧
    ∃ t, step (fetching 0x00EE State.reset) = .next t ∧ t.fault = some .stackUnderflow := ⟨by decide, _, rfl, by decide⟩

theorem witness_EveryStepTicks : runs (fetching 0x6A2B State.reset) (.ldVxNn 0xA 0x2B) ∧
    (∃ t, step (fetching 0x6A2B State.reset) = .next t ∧ t.fault = none) ∧
    (∀ x, Instr.ldVxNn 0xA 0x2B ≠ .ldDtVx x) ∧ (∀ x, Instr.ldVxNn 0xA 0x2B ≠ .ldStVx x) :=
  ⟨by refine ⟨?_, ?_, ?_⟩ <;> decide, ⟨_, rfl, by decide⟩, fun _ => by simp, fun _ => by simp⟩

theorem witness_TimerInstructions : runs (fetching 0xF307 State.reset) (.ldVxDt 3) ∧
    runs (fetching 0xF215 State.reset) (.ldDtVx 2) ∧ runs (fetching 0xF218 State.reset) (.ldStVx 2) := by
  refine ⟨⟨?_, ?_, ?_⟩, ⟨?_, ?_, ?_⟩, ⟨?_, ?_, ?_⟩⟩ <;> decide

theorem witness_Nops : runs (fetching 0x8008 State.reset) (.nop8 0x008) ∧ isNop (.nop8 0x008) = true :=
  ⟨by refine ⟨?_, ?_, ?_⟩ <;> decide, rfl⟩

/-- For the statements on which instruction may write what: LD V1, 0x20 meets every exclusion at once. -/
theorem witness_frames : (∃ t, exec (.ldVxNn 1 0x20) State.reset = .next t ∧ t.fault = none) ∧
    ¬ writesReg (.ldVxNn 1 0x20) 2 ∧
    (∀ x y n nn nnn, Instr.ldVxNn 1 0x20 ≠ .ldBVx x ∧ Instr.ldVxNn 1 0x20 ≠ .ldMemVx x ∧
      Instr.ldVxNn 1 0x20 ≠ .ldINnn nnn ∧ Instr.ldVxNn 1 0x20 ≠ .addIVx x ∧ Instr.ldVxNn 1 0x20 ≠ .ldFVx x ∧
      Instr.ldVxNn 1 0x20 ≠ .call nnn ∧ Instr.ldVxNn 1 0x20 ≠ .ret ∧ Instr.ldVxNn 1 0x20 ≠ .cls ∧
      Instr.ldVxNn 1 0x20 ≠ .drw x y n ∧ Instr.ldVxNn 1 0x20 ≠ .jp nnn ∧ Instr.ldVxNn 1 0x20 ≠ .jpV0Nnn nnn ∧
      Instr.ldVxNn 1 0x20 ≠ .seVxNn x nn ∧ Instr.ldVxNn 1 0x20 ≠ .sneVxNn x nn ∧ Instr.ldVxNn 1 0x20 ≠ .seVxVy x y ∧
      Instr.ldVxNn 1 0x20 ≠ .sneVxVy x y ∧ Instr.ldVxNn 1 0x20 ≠ .skp x ∧ Instr.ldVxNn 1 0x20 ≠ .sknp x ∧
      Instr.ldVxNn 1 0x20 ≠ .ldVxK x) :=
  ⟨⟨_, rfl, by decide⟩, by simp [writesReg], fun _ _ _ _ _ => by simp⟩

/-- The clause of the display statement on draws that complete, and on a redraw flag already set. -/
theorem witness_display : (∃ t, exec .cls { State.reset with redraw := true } = .next t ∧ t.fault = none) ∧
    (∃ t, exec (.drw 0 0 0) State.reset = .next t ∧ t.fault = none) ∧ State.reset.fault = none :=
  ⟨⟨_, rfl, by decide⟩, ⟨_, rfl, by decide⟩, by decide⟩

theorem witness_LegalState : LegalState (fetching 0x2A00 State.reset) ∧
    ∃ t, step (fetching 0x2A00 State.reset) = .next t :=
  ⟨⟨by decide, by decide, by decide, by decide⟩, _, rfl⟩

theorem witness_Reachable : Reachable (hostMove .loadFont (State.powerOn defaultConfig [(0x300, 0x12)])) :=
  .host _ _ (.powerOn _ _ (by decide) (by decide))

theorem witness_ProgramLoad : (List.replicate 0xE00 (0x12 : Byte)).length ≤ 0xE00 ∧
    0xE00 < (List.replicate 0xE01 (0x12 : Byte)).length := by
  rw [List.length_replicate, List.length_replicate]
  omega

theorem witness_FontLoad : ((hostMove .loadFont (regs 3 15 4 0)).reg 3).toNat < 16 := by decide

theorem witness_CallAndReturn : (stSp 15).sp.val < 16 ∧ (stSp 16).sp.val = 16 ∧
    (stSp 16).sp.val = (15 : Fin 16).val + 1 ∧ (stSp 0).sp.val = 0 := by decide

theorem witness_IndexLoads : ((regs 3 15 4 16).reg 3).toNat < 16 ∧ 16 ≤ ((regs 3 15 4 16).reg 4).toNat := by decide

/-- A sum of exactly 0xFFFF, and one above it, under I_ADD_OVERFLOW = fault. -/
def nearTop (b : Byte) : State := { regs 2 b 3 0 with i := 0xFFFE, cfg := { defaultConfig with iAddOverflow := .fault } }

theorem witness_IndexAdd : (nearTop 1).i.toNat + ((nearTop 1).reg 2).toNat ≤ 0xFFFF ∧
    (nearTop 2).cfg.iAddOverflow = .fault ∧ 0xFFFF < (nearTop 2).i.toNat + ((nearTop 2).reg 2).toNat ∧
    State.reset.cfg.iAddOverflow = .wrap16 := by decide

theorem witness_DataBounds : effAddr (stI 0xFFD) 2 ≤ 0xFFF ∧ 0xFFF < effAddr (stI 0xFFE) 2 ∧
    effAddr (stI 0xFF0) (0xF : Nibble).toNat ≤ 0xFFF ∧ 0xFFF < effAddr (stI 0xFF1) (0xF : Nibble).toNat := by decide

theorem witness_SpriteBounds : spriteInBounds (stI 0xFFFF) 0 ∧ spriteInBounds (stI 0xFFD) 3 ∧
    ¬ spriteInBounds (stI 0xFFE) 3 := by
  refine ⟨.inl rfl, .inr (by decide), ?_⟩
  rintro (h | h) <;> revert h <;> decide

/-- Fx55 with x = 0 and x = F at the last address, Fx33 at the last address; PC on the last stored byte, and before the
first. -/
theorem witness_StoredBytesAreFetched :
    effAddr (stI 0xFFF) (0 : Nibble).toNat ≤ 0xFFF ∧ effAddr (stI 0xFF0) (0xF : Nibble).toNat ≤ 0xFFF ∧
    (0x0FFF : Word).toNat = effAddr (stI 0xFF0) (0xF : Nibble).toNat ∧
    (0x0FEF : Word).toNat + 1 = effAddr (stI 0xFF0) (0 : Nibble).toNat ∧
    effAddr (stI 0xFFD) 2 ≤ 0xFFF ∧ (0x0FFD : Word).toNat = effAddr (stI 0xFFD) (0 : Fin 3).val ∧
    (0x0FFE : Word).toNat + 1 = effAddr (stI 0xFFD) (2 : Fin 3).val ∧
    (0x0FFF : Word).toNat = (0xFFF : Addr12).toNat ∧ (0x0FFE : Word).toNat + 1 = (0xFFF : Addr12).toNat := by decide

theorem witness_RandomByteIsOfOneStep : runs (fetching 0xC3FF State.reset) (.rnd 3 0xFF) ∧
    (∃ t, step (fetching 0xC3FF State.reset) = .next t ∧ t.fault = none) ∧ (1 : Nibble) ≠ 3 :=
  ⟨by refine ⟨?_, ?_, ?_⟩ <;> decide, ⟨_, rfl, by decide⟩, by decide⟩

theorem witness_OnlyRndReads : (∀ x nn, Instr.ldVxNn 1 0x20 ≠ .rnd x nn) ∧
    ∃ t, exec (.ldVxNn 1 0x20) { State.reset with randIn := some 7 } = .next t := ⟨fun _ _ => by simp, _, rfl⟩

theorem witness_ReturnCompletes : 0 < (stSp 1).sp.val ∧ 0 < (stSp 16).sp.val := by decide

/-- One sprite byte 0x80 at (5, 0), on a set pixel or a clear one. -/
def sprite (fb : Framebuffer) : State := { regs 1 5 2 0 with i := 0x300, mem := [(0x300, 0x80)], fb := fb }

theorem witness_collides : collides (sprite (flipPixel Framebuffer.blank 5 0)) 1 2 1 ∧
    ¬ collides (stI 0x300) 1 2 0 := by
  refine ⟨⟨5, 0, by decide, by decide⟩, ?_⟩
  rintro ⟨c, r, h, _⟩
  simp [spriteCovers] at h

theorem witness_DrawTwice : spriteCovers (sprite Framebuffer.blank) 1 2 1 5 0 = true ∧
    pixel (sprite Framebuffer.blank).fb 5 0 = false ∧
    (∀ c r, spriteCovers (stI 0x300) 1 2 0 c r = true → pixel (stI 0x300).fb c r = true) :=
  ⟨by decide, by decide, fun c r h => by simp [spriteCovers] at h⟩

theorem witness_KeySkips : ((regs 3 15 4 16).reg 3).toNat = (15 : Fin 16).val ∧ 16 ≤ ((regs 3 15 4 16).reg 4).toNat := by
  decide

theorem witness_KeyWait : (pressed [5, 9] State.reset).keys[5] = true ∧
    (∀ j : Fin 16, j.val < 5 → (pressed [5, 9] State.reset).keys[j.val] = false) ∧
    (∀ k : Fin 16, State.reset.keys[k.val] = false) := by decide

theorem witness_KeyWaitStep : runs (fetching 0xF30A State.reset) (.ldVxK 3) ∧
    ∀ k : Fin 16, (fetching 0xF30A State.reset).keys[k.val] = false :=
  ⟨by refine ⟨?_, ?_, ?_⟩ <;> decide, by decide⟩

end Sys2Proof.Tests
end

section
/-! The random byte belongs to one step: what a Cxnn step does with the byte on `rand_in`, and that no committed step
leaves one there (spec/10_state.md R55; spec/40_cycle.md R130; log 8). -/

namespace Sys2Proof.Machine

open Sys2Proof.Claims

/-- The step of a fetched and decoded instruction is its execution, committed (R130). -/
theorem step_of_runs {s : State} {i : Instr} (h : runs s i) : step s = commit s (exec i (beforeExecute s)) := by
  obtain ⟨hfault, hpc, hdecode⟩ := h
  have hfetch : fetchInBounds s = true := decide_eq_true hpc
  simp [step, hfault, hfetch, hdecode]

/-- Fetch and decode do not see `rand_in`. -/
theorem runs_randomIn {b : Byte} {s : State} {i : Instr} : runs (randomIn b s) i ↔ runs s i := Iff.rfl

@[simp] theorem State.clearRandIn_reg (s : State) (r : Nibble) : s.clearRandIn.reg r = s.reg r := rfl

@[simp] theorem beforeExecute_reg (s : State) (r : Nibble) : (beforeExecute s).reg r = s.reg r :=
  State.reg_of_v (beforeExecute_v s) r

/-- Cxnn with a supplied byte writes Vx and nothing else; no free byte is taken (R55, R193). -/
theorem exec_rnd_of_supplied {s : State} {b : Byte} (x : Nibble) (nn : Byte) (h : s.randIn = some b) :
    exec (.rnd x nn) s = .next (s.setReg x (b &&& nn)) := by
  simp [exec, execRnd, drawRand_supplied s b h]

/-- The whole Cxnn step with a supplied byte: phases F and T, the write of Vx, and the byte gone. -/
theorem step_randomIn_of_runs_rnd {s : State} {x : Nibble} {nn : Byte} (b : Byte) (h : runs s (.rnd x nn)) :
    step (randomIn b s) = .next ((beforeExecute (randomIn b s)).setReg x (b &&& nn)).clearRandIn := by
  have hbyte : (beforeExecute (randomIn b s)).randIn = some b := beforeExecute_randIn _
  have hfault : ((beforeExecute (randomIn b s)).setReg x (b &&& nn)).fault = none :=
    (beforeExecute_fault _).trans h.1
  rw [step_of_runs (runs_randomIn.mpr h), exec_rnd_of_supplied x nn hbyte, commit_next _ _ hfault]

/-- A step that commits leaves no byte on `rand_in`: its state is the one `commit` cleared, for the other ways to answer
a next state raise a fault. -/
theorem randIn_eq_none_of_step {s t : State} (h : step s = .next t) (hfault : t.fault = none) : t.randIn = none := by
  obtain ⟨-, ⟨-, rfl⟩ | ⟨_, u, -, -, -, ⟨-, rfl⟩ | ⟨c, -, rfl⟩⟩⟩ := step_next_cases h
  · cases hfault
  · exact u.clearRandIn_randIn
  · cases hfault

/-- Settles O59: a Cxnn step computes to the byte supplied for it, and `commit` clears the port after every step that
raises no fault; the host's two moves are by definition. -/
theorem randomByteIsOfOneStep : Obligations.RandomByteIsOfOneStep := by
  refine ⟨fun _ _ => rfl, fun s x nn b hrun => ?_, fun _ _ => randIn_eq_none_of_step, fun _ => rfl⟩
  refine ⟨_, step_randomIn_of_runs_rnd b hrun, by simp, by simp, ?_, fun r hr => ?_⟩
  · rw [State.clearRandIn_draws, State.setReg_draws, beforeExecute_draws, randomIn]
  · rw [State.clearRandIn_reg, State.reg_setReg, if_neg hr, beforeExecute_reg]
    rfl

end Sys2Proof.Machine
end

section
/-! What executing an instruction can do to the state, said once: every instruction answers a next state, and that state
differs from the one before by the effect below (spec/10_state.md R33; spec/40_cycle.md R134). The frames and the
invariant are read off the effect. -/

namespace Sys2Proof.Machine

open Sys2Proof.Claims

/-- The instructions that share an effect: one register loaded, a result with its flag, a skip, I set, bytes stored. -/
inductive Family where
  | register (x : Nibble)
  | result (x : Nibble)
  | skip
  | index
  | store
  | other

/-- The family of an instruction. -/
def family : Instr → Family
  | .ldVxNn x _ | .addVxNn x _ | .ldVxVy x _ | .ldVxDt x | .ldVxK x => .register x
  | .orVxVy x _ | .andVxVy x _ | .xorVxVy x _ | .addVxVy x _ | .subVxVy x _ | .shrVx x _ | .subnVxVy x _
  | .shlVx x _ => .result x
  | .seVxNn _ _ | .sneVxNn _ _ | .seVxVy _ _ | .sneVxVy _ _ | .skp _ | .sknp _ => .skip
  | .ldINnn _ | .addIVx _ | .ldFVx _ => .index
  | .ldBVx _ | .ldMemVx _ => .store
  | _ => .other

/-- `Effect s i t`: executing `i` at `s` may answer `t`. Any instruction may raise a fault here; every
other case is of one family or of one instruction. Fx29 above 15 is the case `index` with I itself. -/
inductive Effect (s : State) : Instr → State → Prop where
  | raised {i : Instr} (c : Fault) : Effect s i (s.raise c)
  | idle {i : Instr} (hi : isNop i = true) : Effect s i s
  | register {i : Instr} {x : Nibble} (hi : family i = .register x) (b : Byte) : Effect s i (s.setReg x b)
  | result {i : Instr} {x : Nibble} (hi : family i = .result x) (res f : Byte) :
      Effect s i (writeResultFlag x res f s)
  | random (x : Nibble) (nn b : Byte) : Effect s (.rnd x nn) ((drawRand s).2.setReg x b)
  | loadBlock (x : Nibble) : Effect s (.ldVxMem x) (loadRegs s (readBlock s (x.toNat + 1)))
  | skip {i : Instr} (hi : family i = .skip) (cond : Bool) : Effect s i (skipIf cond s)
  | jump (nnn : Addr12) : Effect s (.jp nnn) (s.setPc (addrWord nnn))
  | offsetJump (nnn : Addr12) : Effect s (.jpV0Nnn nnn) (s.setPc (addrWord nnn + byteWord (s.reg 0)))
  | keyWait (x : Nibble) : Effect s (.ldVxK x) (s.setPc (s.pc - 2))
  | call (nnn : Addr12) (h : s.sp.val ≠ 16) :
      Effect s (.call nnn)
        { s.setSlot ⟨s.sp.val, by omega⟩ s.pc with sp := ⟨s.sp.val + 1, by omega⟩, pc := addrWord nnn }
  | ret (h : s.sp.val ≠ 0) :
      Effect s .ret { s with sp := ⟨s.sp.val - 1, by omega⟩, pc := s.stack[s.sp.val - 1] }
  | index {i : Instr} (hi : family i = .index) (a : Word) : Effect s i (s.setI a)
  | store {i : Instr} (hi : family i = .store) (bytes : List Byte) (hb : s.i.toNat + bytes.length ≤ memSize) :
      Effect s i (writeBlock s bytes)
  | clear : Effect s .cls { s with fb := Framebuffer.blank, redraw := true }
  | draw (x y n : Nibble) (f : Byte) (fb : Framebuffer) :
      Effect s (.drw x y n) { s.setReg vf f with fb := fb, redraw := true }
  | delay (x : Nibble) : Effect s (.ldDtVx x) { s with dt := s.reg x }
  | sound (x : Nibble) : Effect s (.ldStVx x) { s with st := s.reg x }

/-- A block that touches a byte and whose bound check passes lies in memory (R73). -/
theorem block_le_memSize {s : State} {n : Nat} (h : rangeInBounds s n = true) (hpos : 0 < n) :
    s.i.toNat + n ≤ memSize := by
  have hb := (rangeInBounds_iff s n).mp h
  show _ ≤ 4096
  omega

/-- Executing always answers a next state, by one of the effects. -/
theorem exec_effect (s : State) (i : Instr) : ∃ t, exec i s = .next t ∧ Effect s i t := by
  cases i with
  | ldVxNn | addVxNn | ldVxVy | ldVxDt => exact ⟨_, rfl, .register rfl _⟩
  | orVxVy | andVxVy | xorVxVy | addVxVy | subVxVy | shrVx | subnVxVy | shlVx => exact ⟨_, rfl, .result rfl _ _⟩
  | seVxNn | sneVxNn | seVxVy | sneVxVy | skp | sknp => exact ⟨_, rfl, .skip rfl _⟩
  | nop0 | nop5 | nop8 | nop9 | nopE | nopF => exact ⟨_, rfl, .idle rfl⟩
  | rnd x nn => exact ⟨_, rfl, .random x nn _⟩
  | jp nnn => exact ⟨_, rfl, .jump nnn⟩
  | jpV0Nnn nnn => exact ⟨_, rfl, .offsetJump nnn⟩
  | ldINnn => exact ⟨_, rfl, .index rfl _⟩
  | cls => exact ⟨_, rfl, .clear⟩
  | ldDtVx x => exact ⟨_, rfl, .delay x⟩
  | ldStVx x => exact ⟨_, rfl, .sound x⟩
  | ret =>
    simp only [exec, execRet]
    split
    · exact ⟨_, rfl, .raised _⟩
    · next h => exact ⟨_, rfl, .ret h⟩
  | call nnn =>
    simp only [exec, execCall]
    split
    · exact ⟨_, rfl, .raised _⟩
    · next h => exact ⟨_, rfl, .call nnn h⟩
  | addIVx =>
    simp only [exec, execAddIVx]
    split
    · exact ⟨_, rfl, .raised _⟩
    · exact ⟨_, rfl, .index rfl _⟩
  | ldFVx =>
    simp only [exec, execLdFVx]
    split
    · exact ⟨_, rfl, .index rfl _⟩
    · exact ⟨s, rfl, .index rfl s.i⟩
  | ldBVx x =>
    simp only [exec, execLdBVx]
    split
    · next h => exact ⟨_, rfl, .store rfl (bcdDigits (s.reg x)) (block_le_memSize (n := 3) h (by decide))⟩
    · exact ⟨_, rfl, .raised _⟩
  | ldMemVx x =>
    simp only [exec, execLdMemVx]
    split
    · next h => exact ⟨_, rfl, .store rfl _ (length_regBlock s x ▸ block_le_memSize h (by omega))⟩
    · exact ⟨_, rfl, .raised _⟩
  | ldVxMem x =>
    simp only [exec, execLdVxMem]
    split
    · exact ⟨_, rfl, .loadBlock x⟩
    · exact ⟨_, rfl, .raised _⟩
  | drw x y n =>
    simp only [exec, execDrw]
    split
    · exact ⟨_, rfl, .draw x y n _ _⟩
    · exact ⟨_, rfl, .raised _⟩
  | ldVxK x =>
    simp only [exec, execLdVxK]
    split
    · exact ⟨_, rfl, .register rfl _⟩
    · exact ⟨_, rfl, .keyWait x⟩

/-- A next state executing answers is one of the effects. -/
theorem effect_of_exec {i : Instr} {s t : State} (h : exec i s = .next t) : Effect s i t := by
  obtain ⟨u, hu, heff⟩ := exec_effect s i
  cases hu.symm.trans h
  exact heff

/-! ## Frames -/

theorem writesReg_of_register {i : Instr} {x : Nibble} (hi : family i = .register x) : writesReg i x := by
  cases i <;> simp_all [family, writesReg]

theorem writesReg_of_result {i : Instr} {x : Nibble} (hi : family i = .result x) :
    writesReg i x ∧ writesReg i vf := by
  cases i <;> simp_all [family, writesReg]

theorem ne_of_writesReg {i : Instr} {r x : Nibble} (hr : ¬ writesReg i r) (hx : writesReg i x) : r ≠ x :=
  fun h => hr (h ▸ hx)

/-- A register the column "writes V" of R33 does not list keeps its value. -/
theorem Effect.reg_eq {s t : State} {i : Instr} {r : Nibble} (h : Effect s i t) (hr : ¬ writesReg i r) :
    t.reg r = s.reg r := by
  cases h with
  | register hi b =>
    have hne := ne_of_writesReg hr (writesReg_of_register hi)
    rw [State.reg_setReg, if_neg hne]
  | @result _ x hi res f =>
    have hne := ne_of_writesReg hr (writesReg_of_result hi).1
    have hne_vf := ne_of_writesReg hr (writesReg_of_result hi).2
    by_cases hx : x = vf
    · subst hx
      rw [writeResultFlag_reg_vf, if_neg hne_vf]
    · rw [writeResultFlag_reg _ _ _ _ hx, if_neg hne_vf, if_neg hne]
  | random x nn b =>
    have hne : r ≠ x := hr
    rw [State.reg_setReg, if_neg hne]
    exact State.reg_of_v (drawRand_v s) r
  | loadBlock x =>
    have hlt : ¬ r.toNat < x.toNat + 1 := fun hlt => hr (Nat.le_of_lt_succ hlt)
    rw [loadRegs_reg, getD_readBlock, if_neg hlt]
  | skip hi cond => exact State.reg_of_v (skipIf_v cond s) r
  | draw x y n f fb =>
    have hne : r ≠ vf := hr
    show (s.setReg vf f).reg r = s.reg r
    rw [State.reg_setReg, if_neg hne]
  | _ => rfl

/-- The stack is written only by a call. -/
theorem Effect.stack_eq {s t : State} {i : Instr} (h : Effect s i t) (hi : ∀ nnn, i ≠ .call nnn) :
    t.stack = s.stack := by
  cases h with
  | call nnn _ => exact absurd rfl (hi nnn)
  | _ => simp

/-- SP is written only by a call and a return. -/
theorem Effect.sp_eq {s t : State} {i : Instr} (h : Effect s i t) (hi : ∀ nnn, i ≠ .call nnn ∧ i ≠ .ret) :
    t.sp = s.sp := by
  cases h with
  | call nnn _ => exact absurd rfl (hi nnn).1
  | ret _ => exact absurd rfl (hi 0).2
  | _ => simp

/-- Framebuffer and redraw are written only by a clear and a draw. -/
theorem Effect.display_eq {s t : State} {i : Instr} (h : Effect s i t)
    (hi : ∀ x y n, i ≠ .cls ∧ i ≠ .drw x y n) : t.fb = s.fb ∧ t.redraw = s.redraw := by
  cases h with
  | clear => exact absurd rfl (hi 0 0 0).1
  | draw x y n _ _ => exact absurd rfl (hi x y n).2
  | _ => simp

/-- Redraw is set or left. -/
theorem Effect.redraw_mono {s t : State} {i : Instr} (h : Effect s i t) (hs : s.redraw = true) : t.redraw = true := by
  cases h <;> simp [hs]

/-- A clear or a draw that raises no fault sets redraw. -/
theorem Effect.redraw_of_display {s t : State} {i : Instr} {x y n : Nibble} (h : Effect s i t)
    (hi : i = .cls ∨ i = .drw x y n) (ht : t.fault = none) : t.redraw = true := by
  rcases hi with rfl | rfl
  · cases h with
    | raised c => cases ht
    | clear => rfl
    | idle hi | register hi | result hi | skip hi | index hi | store hi => cases hi
  · cases h with
    | raised c => cases ht
    | draw => rfl
    | idle hi | register hi | result hi | skip hi | index hi | store hi => cases hi

/-- PC is written only by a jump, call, return, skip or key wait. -/
theorem Effect.pc_eq {s t : State} {i : Instr} (h : Effect s i t)
    (hi : ∀ nnn x y nn, i ≠ .jp nnn ∧ i ≠ .call nnn ∧ i ≠ .ret ∧ i ≠ .jpV0Nnn nnn ∧ i ≠ .seVxNn x nn ∧
      i ≠ .sneVxNn x nn ∧ i ≠ .seVxVy x y ∧ i ≠ .sneVxVy x y ∧ i ≠ .skp x ∧ i ≠ .sknp x ∧ i ≠ .ldVxK x) :
    t.pc = s.pc := by
  cases h with
  | skip hskip _ => cases i <;> simp_all [family]
  | jump | offsetJump | keyWait | call | ret => simp at hi
  | _ => simp

/-- No instruction writes the key flags. -/
theorem Effect.keys_eq {s t : State} {i : Instr} (h : Effect s i t) : t.keys = s.keys := by
  cases h <;> simp

/-- No instruction writes the parameters. -/
theorem Effect.cfg_eq {s t : State} {i : Instr} (h : Effect s i t) : t.cfg = s.cfg := by
  cases h <;> simp

/-- Settles O18, register by register from the effect. -/
theorem onlyListedRegistersAreWritten : Obligations.OnlyListedRegistersAreWritten :=
  fun _ _ _ h _ hr => (effect_of_exec h).reg_eq hr

/-- Settles O21: of the effects only the call's has another stack, and only the call's and the return's another SP. -/
theorem onlyCallAndReturnMoveTheStack : Obligations.OnlyCallAndReturnMoveTheStack :=
  fun _ _ _ h => ⟨(effect_of_exec h).stack_eq, (effect_of_exec h).sp_eq⟩

/-- Settles O22: the two display effects set redraw, the others keep framebuffer and redraw. -/
theorem onlyClsAndDrwTouchTheDisplay : Obligations.OnlyClsAndDrwTouchTheDisplay :=
  fun _ _ _ h => ⟨(effect_of_exec h).display_eq, (effect_of_exec h).redraw_mono,
    fun _ _ _ hi _ ht => (effect_of_exec h).redraw_of_display hi ht⟩

/-- Settles O23: the effects with another PC are those of the excluded instructions. -/
theorem otherInstructionsLeaveTheFetchAdvance : Obligations.OtherInstructionsLeaveTheFetchAdvance :=
  fun _ _ _ h hi => (effect_of_exec h).pc_eq hi

/-- A step either raises a fault, or commits an effect at the state phases F and T left; PC was then at most 0xFFE. -/
theorem step_effect {s t : State} (h : step s = .next t) :
    (∃ c, t = s.raise c) ∨
      ∃ i u, s.pc.toNat ≤ 0xFFE ∧ Effect (beforeExecute s) i u ∧ t = u.clearRandIn := by
  obtain ⟨-, ⟨-, rfl⟩ | ⟨i, u, hpc, -, hexec, ⟨-, rfl⟩ | ⟨c, -, rfl⟩⟩⟩ := step_next_cases h
  · exact .inl ⟨_, rfl⟩
  · exact .inr ⟨i, u, hpc, effect_of_exec hexec, rfl⟩
  · exact .inl ⟨c, rfl⟩

/-- Settles O24: phases F and T, every effect, a raised fault and `commit` all keep the two. -/
theorem stepLeavesKeysAndParameters : Obligations.StepLeavesKeysAndParameters := by
  intro s t h
  obtain ⟨c, rfl⟩ | ⟨i, u, -, heff, rfl⟩ := step_effect h
  · exact ⟨rfl, rfl⟩
  · exact ⟨heff.keys_eq.trans (beforeExecute_keys s), heff.cfg_eq.trans (beforeExecute_cfg s)⟩

end Sys2Proof.Machine
end

section
/-! The invariant: every effect keeps its parts, so every step does; with the host's moves, every reachable state meets
it (spec/10_state.md R36; spec/60_exceptions.md R340). -/

namespace Sys2Proof.Machine

open Sys2Proof.Claims

/-! ## The parts of the invariant across an effect -/

/-- Memory stays canonical: only a store writes it, inside 0x000..0xFFF. -/
theorem Effect.mem_wf {s t : State} {i : Instr} (h : Effect s i t) (hs : s.mem.wf = true) : t.mem.wf = true := by
  cases h with
  | store _ bytes hb => exact Memory.wf_writeBytes s.mem s.i.toNat bytes hb hs
  | _ => simpa using hs

/-- Every stack slot is at most 0x1000 (R36). -/
def StackBounded (s : State) : Prop := ∀ k : Fin 16, s.stack[k.val].toNat ≤ 0x1000

/-- A call pushes PC, which after the fetch is at most 0x1000. -/
theorem Effect.stackBounded {s t : State} {i : Instr} (h : Effect s i t) (hpc : s.pc.toNat ≤ 0x1000)
    (hs : StackBounded s) : StackBounded t := by
  cases h with
  | call nnn hsp =>
    intro k
    simp only [State.setSlot_stack, Vector.getElem_set]
    split
    · exact hpc
    · exact hs k
  | _ => simpa [StackBounded] using hs

theorem addrWord_toNat_le (nnn : Addr12) : (addrWord nnn).toNat ≤ 0xFFF := by
  have := nnn.isLt
  simp only [addrWord, BitVec.toNat_setWidth]
  omega

/-- An offset jump goes to at most 0xFFF + 0xFF = 0x10FE (R36, R158). -/
theorem offsetTarget_toNat_le (nnn : Addr12) (b : Byte) : (addrWord nnn + byteWord b).toNat ≤ 0x10FE := by
  have hn := addrWord_toNat_le nnn
  have hb := b.isLt
  simp only [byteWord, BitVec.toNat_add, BitVec.toNat_setWidth]
  omega

/-- PC after executing: a skip reaches 0x1002 at most, a key wait goes back to the fetched address, a return takes a
stack slot, a jump a 12-bit address, an offset jump 0x10FE at most. -/
theorem Effect.pc_le {s t : State} {i : Instr} (h : Effect s i t) (hlow : 2 ≤ s.pc.toNat) (hpc : s.pc.toNat ≤ 0x1000)
    (hs : StackBounded s) : t.pc.toNat ≤ 0x10FE := by
  have hkeep : s.pc.toNat ≤ 0x10FE := by omega
  cases h with
  | skip _ cond =>
    rw [skipIf_pc]
    split
    · bv_omega
    · exact hkeep
  | jump nnn => exact (addrWord_toNat_le nnn).trans (by omega)
  | offsetJump nnn => exact offsetTarget_toNat_le nnn _
  | keyWait x =>
    rw [State.setPc_pc]
    bv_omega
  | call nnn _ => exact (addrWord_toNat_le nnn).trans (by omega)
  | ret hsp => exact (hs ⟨s.sp.val - 1, by omega⟩).trans (by omega)
  | _ => simpa using hkeep

/-- The fetch advance of a fetch in bounds does not wrap (R36). -/
theorem beforeExecute_pc_toNat {s : State} (h : s.pc.toNat ≤ 0xFFE) :
    (beforeExecute s).pc.toNat = s.pc.toNat + 2 := by
  rw [beforeExecute_pc]
  bv_omega

/-- Settles O25: a raised fault changes no component the invariant speaks of; a committed step keeps each of its parts,
for phases F and T leave PC between 2 and 0x1000. -/
theorem stepKeepsTheInvariant : Obligations.StepKeepsTheInvariant := by
  intro s t hlegal h
  obtain ⟨hmem, hpc, hstack, hdiv⟩ := hlegal
  obtain ⟨c, rfl⟩ | ⟨i, u, hfetch, heff, rfl⟩ := step_effect h
  · exact ⟨hmem, hpc, hstack, hdiv⟩
  · have hadv := beforeExecute_pc_toNat hfetch
    have hstack' : StackBounded (beforeExecute s) := by simpa [StackBounded] using hstack
    have hmem' : u.mem.wf = true := heff.mem_wf (by rwa [beforeExecute_mem])
    have hcfg : u.cfg = s.cfg := heff.cfg_eq.trans (beforeExecute_cfg s)
    exact ⟨hmem', heff.pc_le (by omega) (by omega) hstack', heff.stackBounded (by omega) hstack', hcfg ▸ hdiv⟩

/-! ## Power-on, reset and the host -/

/-- Settles O26: memory lists no byte, PC is 0x200, the stack is clear and the divisor is 9. -/
theorem resetStateMeetsTheInvariant : Obligations.ResetStateMeetsTheInvariant :=
  ⟨Memory.wf_nil, by decide, by decide, by decide⟩

/-- Power-on and the reset command leave the reset values but for memory, parameters and the count of free bytes. -/
theorem legalState_of_reset {mem : Memory} {cfg : Config} (draws : Nat) (hm : mem.wf = true)
    (hd : 1 ≤ cfg.timerDivisor) : LegalState { State.reset with mem := mem, cfg := cfg, draws := draws } := by
  obtain ⟨-, hpc, hstack, -⟩ := resetStateMeetsTheInvariant
  exact ⟨hm, hpc, hstack, hd⟩

/-- A move that only loads memory keeps the invariant when it keeps memory canonical. -/
theorem LegalState.withMem {s : State} (h : LegalState s) {mem : Memory} (hm : mem.wf = true) :
    LegalState { s with mem := mem } :=
  ⟨hm, h.2⟩

/-- Every load of the host lies in 0x000..0xFFF, and its other moves leave memory, parameters and, but for reset, PC and
the stack alone. -/
theorem legalState_hostMove {s : State} (h : LegalState s) (m : HostMove) : LegalState (hostMove m s) := by
  have ⟨hmem, _, _, hdiv⟩ := h
  cases m with
  | reset => exact legalState_of_reset s.draws hmem hdiv
  | load a b => exact h.withMem (Memory.wf_write _ _ b a.isLt hmem)
  | loadFont => exact h.withMem (Memory.wf_writeBytes _ _ _ (by simp [memSize]) hmem)
  | loadProgram image =>
    simp only [hostMove, loadProgramRom]
    split
    · next hfit => exact h.withMem (Memory.wf_writeBytes _ _ _ (Nat.add_le_add_left hfit programBase) hmem)
    · exact h
  | keys | random | clearRedraw => exact h

/-- Settles O28, by induction on how the state is reached: power-on meets the invariant, and steps (O25) and host moves
keep it. -/
theorem reachableStatesMeetTheInvariant : Obligations.ReachableStatesMeetTheInvariant := by
  intro s hs
  induction hs with
  | powerOn cfg mem0 hd hm => exact legalState_of_reset 0 hm hd
  | step s t _ h ih => exact stepKeepsTheInvariant s t ih h
  | host m s _ ih => exact legalState_hostMove ih m

/-- Every register, pixel, stack slot and key flag of the reset state is clear. -/
theorem reset_vectors_clear :
    (∀ r, State.reset.reg r = 0) ∧ (∀ c r, pixel State.reset.fb c r = false) ∧
      ∀ k : Fin 16, State.reset.stack[k.val] = 0 ∧ State.reset.keys[k.val] = false := by
  simp [State.reset, State.reg, pixel, Framebuffer.blank]

/-- Settles O29: the components the reset command takes from `State.reset`, and the three it leaves. -/
theorem resetCommandSetsTheResetValues : Obligations.ResetCommandSetsTheResetValues := by
  intro s
  obtain ⟨hreg, hpixel, hslots⟩ := reset_vectors_clear
  exact ⟨rfl, rfl, rfl, hreg, rfl, rfl, hpixel, hslots, rfl, rfl, rfl, fun _ => rfl, rfl, rfl, rfl⟩

end Sys2Proof.Machine
end

section
/-! Memory: which instructions write it, the fetch as a big-endian read, the two faults of an access past 0xFFF, and
that a fetch reads what a store or a load left (spec/20_memory.md R71 to R77, R88). -/

namespace Sys2Proof.Machine

open Sys2Proof.Claims

/-! ## Who writes memory -/

/-- The stores are Fx33 and Fx55. -/
theorem family_eq_store_iff {i : Instr} : family i = .store ↔ ∃ x, i = .ldBVx x ∨ i = .ldMemVx x := by
  cases i <;> simp [family]

/-- Memory is written only by a store. -/
theorem Effect.mem_eq {s t : State} {i : Instr} (h : Effect s i t) (hi : family i ≠ .store) : t.mem = s.mem := by
  cases h with
  | store hstore _ _ => exact absurd hstore hi
  | _ => simp

/-- Settles O19: only the effect of a store writes memory, and the excluded instructions are the stores. -/
theorem onlyStoresWriteMemory : Obligations.OnlyStoresWriteMemory := by
  intro i s t h hi
  have hstore : family i ≠ .store := fun hf => by
    obtain ⟨x, hx | hx⟩ := family_eq_store_iff.mp hf
    · exact (hi x).1 hx
    · exact (hi x).2 hx
  have hmem : t.mem = s.mem := (effect_of_exec h).mem_eq hstore
  exact ⟨hmem, fun a => congrArg (Memory.read · a) hmem⟩

/-! ## The fetch -/

/-- Settles O10: the word is the two bytes joined, the lower address high. -/
theorem fetchIsBigEndian : Obligations.FetchIsBigEndian :=
  fun _ => wordOfBytes_toNat _ _

/-- A step in RUN whose fetch is out of bounds takes the fetch fault (R77, R131). -/
theorem step_of_fetch_past_memory {s : State} (hrun : s.fault = none) (hpc : 0xFFE < s.pc.toNat) :
    step s = raiseFault .fetchOutOfBounds s := by
  have hfetch : fetchInBounds s = false := decide_eq_false (Nat.not_le.mpr hpc)
  simp [step, hrun, hfetch]

/-- Settles O11: the step is `raiseFault` at the state it began at, and its result port reads the raised cause. -/
theorem fetchPastMemoryFaults : Obligations.FetchPastMemoryFaults := by
  intro s hrun hpc
  rw [step_of_fetch_past_memory hrun hpc]
  exact ⟨rfl, rfl⟩

/-! ## The bound of an I-relative access -/

/-- The bound check of a block that touches a byte is on its last address (R73). -/
theorem rangeInBounds_succ_iff (s : State) (k : Nat) : rangeInBounds s (k + 1) = true ↔ effAddr s k ≤ 0xFFF := by
  simp [rangeInBounds_iff, effAddr]

/-- The bound check of Dxyn says the sprite's bytes exist (R253). -/
theorem rangeInBounds_iff_spriteInBounds (s : State) (n : Nibble) :
    rangeInBounds s n.toNat = true ↔ spriteInBounds s n := by
  have hzero : n = 0 ↔ n.toNat = 0 := BitVec.toNat_inj.symm
  rw [rangeInBounds_iff, spriteInBounds, hzero]
  omega

theorem exec_ldBVx_of_outside {s : State} (x : Nibble) (h : 0xFFF < effAddr s 2) :
    exec (.ldBVx x) s = raiseFault .memoryOutOfBounds s :=
  if_neg fun hb => Nat.not_le.mpr h ((rangeInBounds_succ_iff s 2).mp hb)

theorem exec_ldMemVx_of_outside {s : State} {x : Nibble} (h : 0xFFF < effAddr s x.toNat) :
    exec (.ldMemVx x) s = raiseFault .memoryOutOfBounds s :=
  if_neg fun hb => Nat.not_le.mpr h ((rangeInBounds_succ_iff s _).mp hb)

theorem exec_ldVxMem_of_outside {s : State} {x : Nibble} (h : 0xFFF < effAddr s x.toNat) :
    exec (.ldVxMem x) s = raiseFault .memoryOutOfBounds s :=
  if_neg fun hb => Nat.not_le.mpr h ((rangeInBounds_succ_iff s _).mp hb)

theorem exec_drw_of_outside {s : State} {n : Nibble} (x y : Nibble) (h : ¬ spriteInBounds s n) :
    exec (.drw x y n) s = raiseFault .memoryOutOfBounds s :=
  if_neg fun hb => h ((rangeInBounds_iff_spriteInBounds s n).mp hb)

/-- Settles O48: each of the four fails its bound check, which comes before any write, and `raiseFault` writes the fault
register only. -/
theorem dataAccessPastMemoryFaults : Obligations.DataAccessPastMemoryFaults :=
  fun x y _ _ => ⟨exec_ldBVx_of_outside x, fun h => ⟨exec_ldMemVx_of_outside h, exec_ldVxMem_of_outside h⟩,
    exec_drw_of_outside x y⟩

/-! ## What a store leaves to read -/

theorem exec_ldBVx_of_inside {s : State} (x : Nibble) (h : effAddr s 2 ≤ 0xFFF) :
    exec (.ldBVx x) s = .next (writeBlock s (bcdDigits (s.reg x))) :=
  if_pos ((rangeInBounds_succ_iff s 2).mpr h)

theorem exec_ldMemVx_of_inside {s : State} {x : Nibble} (h : effAddr s x.toNat ≤ 0xFFF) :
    exec (.ldMemVx x) s = .next (writeBlock s (regBlock s x)) :=
  if_pos ((rangeInBounds_succ_iff s _).mpr h)

/-- A block write leaves its k-th byte at I + k. -/
theorem writeBlock_readByte_effAddr (s : State) {bytes : List Byte} {k : Nat} (hk : k < bytes.length) :
    (writeBlock s bytes).readByte (effAddr s k) = bytes.getD k 0 := by
  have hin : s.i.toNat ≤ effAddr s k ∧ effAddr s k < s.i.toNat + bytes.length := by
    unfold effAddr
    omega
  rw [writeBlock_readByte, if_pos hin, effAddr, Nat.add_sub_cancel_left]

/-- Fx55 leaves register r at I + r (R225). -/
theorem readByte_storedRegs (s : State) {x r : Nibble} (hr : r.toNat ≤ x.toNat) :
    (writeBlock s (regBlock s x)).readByte (effAddr s r.toNat) = s.reg r := by
  have hk : r.toNat < (regBlock s x).length := length_regBlock s x ▸ Nat.lt_succ_of_le hr
  rw [writeBlock_readByte_effAddr s hk, getD_regBlock s x r hr]

/-- Digit k of a byte, hundreds first (R224). -/
theorem getD_bcdDigits_toNat (v : Byte) (k : Fin 3) :
    ((bcdDigits v).getD k.val 0).toNat = v.toNat / 10 ^ (2 - k.val) % 10 := by
  have hhundreds : v.toNat / 100 < 10 := by
    have := v.isLt
    omega
  fin_cases k
  · simp [bcdDigits, Nat.mod_eq_of_lt hhundreds]
  · simp [bcdDigits]
  · simp [bcdDigits]

/-- Fx33 leaves digit k of Vx at I + k (R224). -/
theorem readByte_storedDigits (s : State) (x : Nibble) (k : Fin 3) :
    ((writeBlock s (bcdDigits (s.reg x))).readByte (effAddr s k.val)).toNat =
      (s.reg x).toNat / 10 ^ (2 - k.val) % 10 := by
  rw [writeBlock_readByte_effAddr s k.isLt, getD_bcdDigits_toNat]

/-- A host load leaves its byte at its address (R58). -/
theorem readByte_loadByte (a : Addr12) (b : Byte) (s : State) : (loadByte a b s).readByte a.toNat = b :=
  (Memory.read_write s.mem a.toNat a.toNat b).trans (if_pos rfl)

/-- Whatever holds of the byte at an address holds of the half of the word a fetch that covers the address reads there:
the high half with PC at it, the low half with PC one below (R76, R88). -/
theorem fetch_of_readByte {p : Byte → Prop} {s : State} {a : Nat} (h : p (s.readByte a)) (pc : Word) :
    (pc.toNat = a → p (hiByte (fetchWord (s.setPc pc)))) ∧
      (pc.toNat + 1 = a → p (loByte (fetchWord (s.setPc pc)))) := by
  constructor
  · rintro rfl
    rwa [fetchWord, hiByte_wordOfBytes]
  · rintro rfl
    rwa [fetchWord, loByte_wordOfBytes]

/-- Settles O50: a fetch reads the memory the store or the load left, byte by byte. -/
theorem storedBytesAreFetched : Obligations.StoredBytesAreFetched := by
  refine ⟨fun x s h => ⟨_, exec_ldMemVx_of_inside h, fun r pc hr => ?_⟩,
    fun x s h => ⟨_, exec_ldBVx_of_inside x h, fun k pc => ?_⟩, fun a b s pc => ?_⟩
  · exact fetch_of_readByte (p := (· = s.reg r)) (readByte_storedRegs s hr) pc
  · exact fetch_of_readByte (p := (BitVec.toNat · = _)) (readByte_storedDigits s x k) pc
  · exact fetch_of_readByte (p := (· = b)) (readByte_loadByte a b s) pc

end Sys2Proof.Machine
end

section
/-! Decoding and encoding: an encoding decodes to its instruction, the rows of the opcode list and the no-op space cover
every word, and what DECODE_5_9 decides (spec/30_encoding.md R104 to R112). -/

namespace Sys2Proof

open Sys2Proof.Machine Sys2Proof.Claims

/-! ## The payload of a no-op, given by its fields -/

theorem word_addr_xyn (a x y n : Nibble) : (a ++ (x ++ y ++ n : Addr12) : Word) = (a ++ x ++ y ++ n : Word) := by
  apply BitVec.eq_of_toNat_eq
  rw [word_nnn_toNat, addr_xyn_toNat, word_xyn_toNat]; omega

theorem word_addr_xnn (a x : Nibble) (nn : Byte) : (a ++ (x ++ nn : Addr12) : Word) = (a ++ x ++ nn : Word) := by
  apply BitVec.eq_of_toNat_eq
  rw [word_nnn_toNat, addr_xnn_toNat, word_xnn_toNat]; omega

theorem payloadN_xyn (x y n : Nibble) : payloadN (x ++ y ++ n : Addr12) = n := by
  rw [← nnnField_xyn 0x0 x y n, payloadN_nnnField, nField_xyn]

theorem payloadNn_xnn (x : Nibble) (nn : Byte) : payloadNn (x ++ nn : Addr12) = nn := by
  rw [← nnnField_xnn 0x0 x nn, payloadNn_nnnField, nnField_xnn]

theorem word_of_opField_nnn {a : Nibble} {w : Word} (h : opField w = a) : (a ++ nnnField w : Word) = w :=
  h ▸ word_of_op_nnn w

/-! ## The decoder, family by family -/

/-- Family 0 compares the whole word, so within the family it compares nnn (R105). -/
theorem decodeFamily0_nop {w : Word} (hcls : nnnField w ≠ 0x0E0) (hret : nnnField w ≠ 0x0EE) :
    decodeFamily0 w = .nop0 (nnnField w) := by
  have hcls' : w ≠ 0x00E0 := by rintro rfl; exact hcls rfl
  have hret' : w ≠ 0x00EE := by rintro rfl; exact hret rfl
  rw [decodeFamily0, if_neg hcls', if_neg hret']

/-- Every arm of family 8 but the last is at a listed sub-opcode (R106). -/
theorem decodeFamily8_nop {w : Word} (h : nField w ∉ aluSubOps) : decodeFamily8 w = .nop8 (nnnField w) := by
  unfold decodeFamily8
  split <;> simp_all [aluSubOps, ← BitVec.toNat_inj]

/-- Every arm of family E but the last is at a listed sub-opcode (R107). -/
theorem decodeFamilyE_nop {w : Word} (h : nnField w ∉ keySubOps) : decodeFamilyE w = .nopE (nnnField w) := by
  unfold decodeFamilyE
  split <;> simp_all [keySubOps, ← BitVec.toNat_inj]

/-- Every arm of family F but the last is at a listed sub-opcode (R107). -/
theorem decodeFamilyF_nop {w : Word} (h : nnField w ∉ miscSubOps) : decodeFamilyF w = .nopF (nnnField w) := by
  unfold decodeFamilyF
  split <;> simp_all [miscSubOps, ← BitVec.toNat_inj]

/-- Decoding gives back every well-formed instruction but the no-ops 5xyN and 9xyN under every DECODE_5_9: the fields of
the encoding are the instruction's, and a well-formed no-op has no sub-opcode of its family (R108, R112). -/
theorem decode_encode (d : Decode59) {i : Instr} (hwf : i.wf = true) (hlow : ∀ w, i ≠ .nop5 w ∧ i ≠ .nop9 w) :
    decode d (encode i) = .ok i := by
  cases i with
  | cls | ret => rfl
  | jp | call | ldINnn | jpV0Nnn | seVxNn | sneVxNn | ldVxNn | addVxNn | rnd | drw => simp [encode, decode]
  | seVxVy | sneVxVy => simp [encode, decode, decodeFamily59]
  | ldVxVy | orVxVy | andVxVy | xorVxVy | addVxVy | subVxVy | shrVx | subnVxVy | shlVx =>
    simp [encode, decode, decodeFamily8]
  | skp | sknp => simp [encode, decode, decodeFamilyE]
  | ldVxDt | ldVxK | ldDtVx | ldStVx | addIVx | ldFVx | ldBVx | ldMemVx | ldVxMem =>
    simp [encode, decode, decodeFamilyF]
  | nop0 w =>
    obtain ⟨hcls, hret⟩ : w ≠ 0x0E0 ∧ w ≠ 0x0EE := by simpa [Instr.wf] using hwf
    have h : decodeFamily0 (0x0#4 ++ w) = .nop0 w := by
      simpa using decodeFamily0_nop (w := 0x0#4 ++ w) (by rwa [nnnField_nnn]) (by rwa [nnnField_nnn])
    simp [encode, decode, h]
  | nop8 w =>
    have h : payloadN w ∉ aluSubOps := by simpa [Instr.wf] using hwf
    simp [encode, decode, decodeFamily8_nop, h]
  | nopE w =>
    have h : payloadNn w ∉ keySubOps := by simpa [Instr.wf] using hwf
    simp [encode, decode, decodeFamilyE_nop, h]
  | nopF w =>
    have h : payloadNn w ∉ miscSubOps := by simpa [Instr.wf] using hwf
    simp [encode, decode, decodeFamilyF_nop, h]
  | nop5 w => exact absurd rfl (hlow w).1
  | nop9 w => exact absurd rfl (hlow w).2

/-- With a low nibble other than 0, strict_nop reads a word of family 5 or 9 as its no-op (R109). -/
theorem decode_strictNop_low_nibble {w : Addr12} (h : payloadN w ≠ 0) :
    decode .strictNop (encode (.nop5 w)) = .ok (.nop5 w) ∧ decode .strictNop (encode (.nop9 w)) = .ok (.nop9 w) := by
  have hn : payloadN w ≠ 0#4 := h
  simp [encode, decode, decodeFamily59, hn]

/-- Settles O2: `decode_encode`, and for the no-ops 5xyN and 9xyN the reading of strict_nop. -/
theorem decodeOfEncodeIsTheInstruction : Obligations.DecodeOfEncodeIsTheInstruction := by
  intro i hwf
  refine ⟨?_, fun hlow d => decode_encode d hwf hlow⟩
  by_cases hlow : ∀ w, i ≠ .nop5 w ∧ i ≠ .nop9 w
  · exact decode_encode .strictNop hwf hlow
  · simp only [not_forall, not_and_or, not_not] at hlow
    obtain ⟨w, rfl | rfl⟩ := hlow
    · exact (decode_strictNop_low_nibble (by simpa [Instr.wf] using hwf)).1
    · exact (decode_strictNop_low_nibble (by simpa [Instr.wf] using hwf)).2

/-! ## The specific rows and the no-op space -/

/-- Only a no-op can be ill-formed (R112). -/
theorem wf_of_specific {i : Instr} (h : isNop i = false) : i.wf = true := by
  cases i with
  | nop0 | nop5 | nop8 | nop9 | nopE | nopF => cases h
  | _ => rfl

theorem decode_encode_of_specific (d : Decode59) {i : Instr} (h : isNop i = false) : decode d (encode i) = .ok i :=
  decode_encode d (wf_of_specific h) fun _ => ⟨fun hi => by simp [hi, isNop] at h, fun hi => by simp [hi, isNop] at h⟩

/-- A row with the mask of one whole word. -/
theorem selects_FFFF (p w : Word) : (OpRow.mk 0xFFFF p).selects w = true ↔ w = p := by
  simp only [OpRow.selects, and_FFFF, beq_iff_eq]

theorem and_F0FF_xnn (w : Word) : w &&& 0xF0FF = (opField w ++ 0x0#4 ++ nnField w : Word) := by
  apply BitVec.eq_of_toNat_eq
  rw [and_F0FF, word_xyn_toNat, word_xnn_toNat, yField_toNat, nField_toNat, nnField_toNat]; omega

/-- A row with mask F0FF, its sub-opcode as one byte. -/
theorem selects_F0FF_xnn (a : Nibble) (nn : Byte) (w : Word) :
    (OpRow.mk 0xF0FF (a ++ 0x0#4 ++ nn : Word)).selects w = true ↔ opField w = a ∧ nnField w = nn := by
  simp only [OpRow.selects, beq_iff_eq, and_F0FF_xnn]
  constructor
  · intro h
    exact ⟨by simpa using congrArg opField h, by simpa using congrArg nnField h⟩
  · rintro ⟨rfl, rfl⟩
    rfl

/-- An instruction of a specific row with its encoding. -/
def Encodes (row : OpRow) (i : Instr) (w : Word) : Prop := i.row = row ∧ isNop i = false ∧ encode i = w

/-- Every word a row selects is the encoding of an instruction of that row. -/
def Covered (row : OpRow) : Prop := ∀ w, row.selects w = true → ∃ i, Encodes row i w

/-! One lemma per format of a word: a row of that format is covered by the instruction built from the word's fields. -/

theorem covered_word (i : Instr) {w : Word} (hi : Encodes ⟨0xFFFF, w⟩ i w) : Covered ⟨0xFFFF, w⟩ := by
  intro v hv
  obtain rfl := (selects_FFFF w v).mp hv
  exact ⟨i, hi⟩

theorem covered_nnn (a : Nibble) (f : Addr12 → Instr)
    (hf : ∀ nnn, Encodes ⟨0xF000, (a ++ 0x0#4 ++ 0x0#4 ++ 0x0#4 : Word)⟩ (f nnn) (a ++ nnn)) :
    Covered ⟨0xF000, (a ++ 0x0#4 ++ 0x0#4 ++ 0x0#4 : Word)⟩ := by
  intro w hw
  obtain rfl := (selects_F000 a w).mp hw
  have henc := hf (nnnField w)
  rw [word_of_op_nnn] at henc
  exact ⟨_, henc⟩

theorem covered_xnn (a : Nibble) (f : Nibble → Byte → Instr)
    (hf : ∀ x nn, Encodes ⟨0xF000, (a ++ 0x0#4 ++ 0x0#4 ++ 0x0#4 : Word)⟩ (f x nn) (a ++ x ++ nn)) :
    Covered ⟨0xF000, (a ++ 0x0#4 ++ 0x0#4 ++ 0x0#4 : Word)⟩ := by
  intro w hw
  obtain rfl := (selects_F000 a w).mp hw
  have henc := hf (xField w) (nnField w)
  rw [word_of_op_x_nn] at henc
  exact ⟨_, henc⟩

theorem covered_xyn (a : Nibble) (f : Nibble → Nibble → Nibble → Instr)
    (hf : ∀ x y n, Encodes ⟨0xF000, (a ++ 0x0#4 ++ 0x0#4 ++ 0x0#4 : Word)⟩ (f x y n) (a ++ x ++ y ++ n)) :
    Covered ⟨0xF000, (a ++ 0x0#4 ++ 0x0#4 ++ 0x0#4 : Word)⟩ := by
  intro w hw
  obtain rfl := (selects_F000 a w).mp hw
  have henc := hf (xField w) (yField w) (nField w)
  rw [word_of_op_x_y_n] at henc
  exact ⟨_, henc⟩

theorem covered_xy (a n : Nibble) (f : Nibble → Nibble → Instr)
    (hf : ∀ x y, Encodes ⟨0xF00F, (a ++ 0x0#4 ++ 0x0#4 ++ n : Word)⟩ (f x y) (a ++ x ++ y ++ n)) :
    Covered ⟨0xF00F, (a ++ 0x0#4 ++ 0x0#4 ++ n : Word)⟩ := by
  intro w hw
  obtain ⟨rfl, rfl⟩ := (selects_F00F a n w).mp hw
  have henc := hf (xField w) (yField w)
  rw [word_of_op_x_y_n] at henc
  exact ⟨_, henc⟩

theorem covered_x (a : Nibble) (nn : Byte) (f : Nibble → Instr)
    (hf : ∀ x, Encodes ⟨0xF0FF, (a ++ 0x0#4 ++ nn : Word)⟩ (f x) (a ++ x ++ nn)) :
    Covered ⟨0xF0FF, (a ++ 0x0#4 ++ nn : Word)⟩ := by
  intro w hw
  obtain ⟨rfl, rfl⟩ := (selects_F0FF_xnn a nn w).mp hw
  have henc := hf (xField w)
  rw [word_of_op_x_nn] at henc
  exact ⟨_, henc⟩

/-- The 34 rows in the table's order, each with its instruction (R108). -/
theorem specificRows_covered : ∀ row ∈ specificRows, Covered row := by
  simp only [specificRows, List.cons_append, List.nil_append, List.forall_mem_cons]
  exact ⟨
    covered_word .cls ⟨rfl, rfl, rfl⟩,
    covered_word .ret ⟨rfl, rfl, rfl⟩,
    covered_nnn 0x1 .jp fun _ => ⟨rfl, rfl, rfl⟩,
    covered_nnn 0x2 .call fun _ => ⟨rfl, rfl, rfl⟩,
    covered_xnn 0x3 .seVxNn fun _ _ => ⟨rfl, rfl, rfl⟩,
    covered_xnn 0x4 .sneVxNn fun _ _ => ⟨rfl, rfl, rfl⟩,
    covered_xy 0x5 0x0 .seVxVy fun _ _ => ⟨rfl, rfl, rfl⟩,
    covered_xy 0x9 0x0 .sneVxVy fun _ _ => ⟨rfl, rfl, rfl⟩,
    covered_xnn 0x6 .ldVxNn fun _ _ => ⟨rfl, rfl, rfl⟩,
    covered_xnn 0x7 .addVxNn fun _ _ => ⟨rfl, rfl, rfl⟩,
    covered_xy 0x8 0x0 .ldVxVy fun _ _ => ⟨rfl, rfl, rfl⟩,
    covered_xy 0x8 0x1 .orVxVy fun _ _ => ⟨rfl, rfl, rfl⟩,
    covered_xy 0x8 0x2 .andVxVy fun _ _ => ⟨rfl, rfl, rfl⟩,
    covered_xy 0x8 0x3 .xorVxVy fun _ _ => ⟨rfl, rfl, rfl⟩,
    covered_xy 0x8 0x4 .addVxVy fun _ _ => ⟨rfl, rfl, rfl⟩,
    covered_xy 0x8 0x5 .subVxVy fun _ _ => ⟨rfl, rfl, rfl⟩,
    covered_xy 0x8 0x6 .shrVx fun _ _ => ⟨rfl, rfl, rfl⟩,
    covered_xy 0x8 0x7 .subnVxVy fun _ _ => ⟨rfl, rfl, rfl⟩,
    covered_xy 0x8 0xE .shlVx fun _ _ => ⟨rfl, rfl, rfl⟩,
    covered_nnn 0xA .ldINnn fun _ => ⟨rfl, rfl, rfl⟩,
    covered_nnn 0xB .jpV0Nnn fun _ => ⟨rfl, rfl, rfl⟩,
    covered_xnn 0xC .rnd fun _ _ => ⟨rfl, rfl, rfl⟩,
    covered_xyn 0xD .drw fun _ _ _ => ⟨rfl, rfl, rfl⟩,
    covered_x 0xE 0x9E .skp fun _ => ⟨rfl, rfl, rfl⟩,
    covered_x 0xE 0xA1 .sknp fun _ => ⟨rfl, rfl, rfl⟩,
    covered_x 0xF 0x07 .ldVxDt fun _ => ⟨rfl, rfl, rfl⟩,
    covered_x 0xF 0x0A .ldVxK fun _ => ⟨rfl, rfl, rfl⟩,
    covered_x 0xF 0x15 .ldDtVx fun _ => ⟨rfl, rfl, rfl⟩,
    covered_x 0xF 0x18 .ldStVx fun _ => ⟨rfl, rfl, rfl⟩,
    covered_x 0xF 0x1E .addIVx fun _ => ⟨rfl, rfl, rfl⟩,
    covered_x 0xF 0x29 .ldFVx fun _ => ⟨rfl, rfl, rfl⟩,
    covered_x 0xF 0x33 .ldBVx fun _ => ⟨rfl, rfl, rfl⟩,
    covered_x 0xF 0x55 .ldMemVx fun _ => ⟨rfl, rfl, rfl⟩,
    covered_x 0xF 0x65 .ldVxMem fun _ => ⟨rfl, rfl, rfl⟩,
    List.forall_mem_nil _⟩

/-- Settles O5: two rows that select a word each encode an instruction to it, and decoding makes them one. -/
theorem tableRowsAreDisjoint : Obligations.TableRowsAreDisjoint := by
  intro w p hp q hq hpw hqw
  obtain ⟨i, rfl, hi, rfl⟩ := specificRows_covered p hp w hpw
  obtain ⟨j, rfl, hj, henc⟩ := specificRows_covered q hq _ hqw
  have hsame : Decoded.ok j = .ok i := by
    rw [← decode_encode_of_specific .strictNop hj, henc, decode_encode_of_specific .strictNop hi]
  cases hsame
  rfl

/-- The families whose every word selects a specific row (R108). -/
def wholeFamilies : List Nibble := [0x1, 0x2, 0x3, 0x4, 0x6, 0x7, 0xA, 0xB, 0xC, 0xD]

theorem row_mem_of_wholeFamily :
    ∀ a ∈ wholeFamilies, OpRow.mk 0xF000 (a ++ 0x0#4 ++ 0x0#4 ++ 0x0#4 : Word) ∈ specificRows := by decide

theorem row_mem_of_aluSubOp :
    ∀ n ∈ aluSubOps, OpRow.mk 0xF00F (0x8#4 ++ 0x0#4 ++ 0x0#4 ++ n : Word) ∈ specificRows := by decide

theorem row_mem_of_keySubOp :
    ∀ nn ∈ keySubOps, OpRow.mk 0xF0FF (0xE#4 ++ 0x0#4 ++ nn : Word) ∈ specificRows := by decide

theorem row_mem_of_miscSubOp :
    ∀ nn ∈ miscSubOps, OpRow.mk 0xF0FF (0xF#4 ++ 0x0#4 ++ nn : Word) ∈ specificRows := by decide

theorem wholeFamily_or_nopFamily :
    ∀ a : Nibble, a ∈ wholeFamilies ∨ a = 0x0 ∨ a = 0x5 ∨ a = 0x8 ∨ a = 0x9 ∨ a = 0xE ∨ a = 0xF := by decide

/-- A word that selects no specific row is the encoding of a well-formed no-op: its family is not one whose every word
is specific, and its sub-opcode is none of a row (R112). -/
theorem exists_nop_of_unselected {w : Word} (h : ∀ row ∈ specificRows, row.selects w = false) :
    ∃ i : Instr, isNop i = true ∧ i.wf = true ∧ encode i = w := by
  have unselected {row : OpRow} (hrow : row ∈ specificRows) : ¬ row.selects w = true := by simp [h row hrow]
  have hnnn {v : Addr12} (hop : opField w = 0x0) (hrow : OpRow.mk 0xFFFF (0x0#4 ++ v : Word) ∈ specificRows) :
      nnnField w ≠ v := fun hv =>
    unselected hrow ((selects_FFFF _ w).mpr (hv ▸ (word_of_opField_nnn hop).symm))
  have hn {a n : Nibble} (hop : opField w = a)
      (hrow : OpRow.mk 0xF00F (a ++ 0x0#4 ++ 0x0#4 ++ n : Word) ∈ specificRows) : nField w ≠ n := fun hn =>
    unselected hrow ((selects_F00F a n w).mpr ⟨hop, hn⟩)
  have hnn {a : Nibble} {nn : Byte} (hop : opField w = a)
      (hrow : OpRow.mk 0xF0FF (a ++ 0x0#4 ++ nn : Word) ∈ specificRows) : nnField w ≠ nn := fun hnn =>
    unselected hrow ((selects_F0FF_xnn a nn w).mpr ⟨hop, hnn⟩)
  obtain hop | hop | hop | hop | hop | hop | hop := wholeFamily_or_nopFamily (opField w)
  · exact absurd ((selects_F000 _ w).mpr rfl) (unselected (row_mem_of_wholeFamily _ hop))
  · refine ⟨.nop0 (nnnField w), rfl, ?_, word_of_opField_nnn hop⟩
    have hcls : nnnField w ≠ 0x0E0 := hnnn hop (by decide)
    have hret : nnnField w ≠ 0x0EE := hnnn hop (by decide)
    simpa [Instr.wf] using And.intro hcls hret
  · refine ⟨.nop5 (nnnField w), rfl, ?_, word_of_opField_nnn hop⟩
    have hbase : nField w ≠ 0x0 := hn hop (by decide)
    simpa [Instr.wf, payloadN_nnnField] using hbase
  · refine ⟨.nop8 (nnnField w), rfl, ?_, word_of_opField_nnn hop⟩
    have hsub : nField w ∉ aluSubOps := fun hmem => hn hop (row_mem_of_aluSubOp _ hmem) rfl
    simpa [Instr.wf, payloadN_nnnField] using hsub
  · refine ⟨.nop9 (nnnField w), rfl, ?_, word_of_opField_nnn hop⟩
    have hbase : nField w ≠ 0x0 := hn hop (by decide)
    simpa [Instr.wf, payloadN_nnnField] using hbase
  · refine ⟨.nopE (nnnField w), rfl, ?_, word_of_opField_nnn hop⟩
    have hsub : nnField w ∉ keySubOps := fun hmem => hnn hop (row_mem_of_keySubOp _ hmem) rfl
    simpa [Instr.wf, payloadNn_nnnField] using hsub
  · refine ⟨.nopF (nnnField w), rfl, ?_, word_of_opField_nnn hop⟩
    have hsub : nnField w ∉ miscSubOps := fun hmem => hnn hop (row_mem_of_miscSubOp _ hmem) rfl
    simpa [Instr.wf, payloadNn_nnnField] using hsub

/-- Settles O4: a selecting row covers its words, the no-ops the rest, and each encoding decodes back. -/
theorem decodeSelectsTheTableRow : Obligations.DecodeSelectsTheTableRow := by
  refine ⟨fun d w row hrow hw => ?_, fun w h => ?_⟩
  · obtain ⟨i, hi, hnop, rfl⟩ := specificRows_covered row hrow w hw
    exact ⟨i, decode_encode_of_specific d hnop, hi, hnop, rfl⟩
  · obtain ⟨i, hnop, hwf, rfl⟩ := exists_nop_of_unselected h
    exact ⟨i, (decodeOfEncodeIsTheInstruction i hwf).1, hnop, rfl⟩

/-- Every word is an encoding: of an instruction of the row that selects it, or of a no-op. -/
theorem exists_wf_encode (w : Word) : ∃ i : Instr, i.wf = true ∧ encode i = w := by
  by_cases h : ∃ row ∈ specificRows, row.selects w = true
  · obtain ⟨row, hrow, hw⟩ := h
    obtain ⟨i, -, hnop, henc⟩ := specificRows_covered row hrow w hw
    exact ⟨i, wf_of_specific hnop, henc⟩
  · obtain ⟨i, -, hi⟩ := exists_nop_of_unselected fun row hrow => by simpa using fun hw => h ⟨row, hrow, hw⟩
    exact ⟨i, hi⟩

/-- Settles O3: the word is an encoding, and decoding it gives the encoded instruction. -/
theorem encodeOfDecodeIsTheWord : Obligations.EncodeOfDecodeIsTheWord := by
  intro w
  obtain ⟨i, hwf, rfl⟩ := exists_wf_encode w
  exact ⟨i, (decodeOfEncodeIsTheInstruction i hwf).1, hwf, rfl⟩

/-! ## The families that select on a sub-opcode -/

theorem decode_nop8 (d : Decode59) (x y : Nibble) {n : Nibble} (h : n ∉ aluSubOps) :
    decode d (0x8#4 ++ x ++ y ++ n) = .ok (.nop8 (x ++ y ++ n)) := by
  rw [← word_addr_xyn]
  exact decode_encode d (i := .nop8 _) (by simpa [Instr.wf, payloadN_xyn] using h) (by simp)

theorem decode_nopE (d : Decode59) (x : Nibble) {nn : Byte} (h : nn ∉ keySubOps) :
    decode d (0xE#4 ++ x ++ nn) = .ok (.nopE (x ++ nn)) := by
  rw [← word_addr_xnn]
  exact decode_encode d (i := .nopE _) (by simpa [Instr.wf, payloadNn_xnn] using h) (by simp)

theorem decode_nopF (d : Decode59) (x : Nibble) {nn : Byte} (h : nn ∉ miscSubOps) :
    decode d (0xF#4 ++ x ++ nn) = .ok (.nopF (x ++ nn)) := by
  rw [← word_addr_xnn]
  exact decode_encode d (i := .nopF _) (by simpa [Instr.wf, payloadNn_xnn] using h) (by simp)

/-- Settles O6: each word is an encoding, so it decodes back; the no-ops execute by definition to the state itself. -/
theorem familySubOpcodesSelect : Obligations.FamilySubOpcodesSelect := by
  intro d x y n nn
  have back {i : Instr} (h : isNop i = false) := decode_encode_of_specific d h
  exact ⟨back (i := .ldVxVy x y) rfl, back (i := .orVxVy x y) rfl, back (i := .andVxVy x y) rfl,
    back (i := .xorVxVy x y) rfl, back (i := .addVxVy x y) rfl, back (i := .subVxVy x y) rfl,
    back (i := .shrVx x y) rfl, back (i := .subnVxVy x y) rfl, back (i := .shlVx x y) rfl, decode_nop8 d x y,
    back (i := .skp x) rfl, back (i := .sknp x) rfl, decode_nopE d x,
    back (i := .ldVxDt x) rfl, back (i := .ldVxK x) rfl, back (i := .ldDtVx x) rfl, back (i := .ldStVx x) rfl,
    back (i := .addIVx x) rfl, back (i := .ldFVx x) rfl, back (i := .ldBVx x) rfl, back (i := .ldMemVx x) rfl,
    back (i := .ldVxMem x) rfl, decode_nopF d x, fun _ _ => ⟨rfl, rfl, rfl⟩⟩

/-! ## The low nibble of families 5 and 9 -/

/-- Under refuse the decoder gives 5xyN and 9xyN, N not 0, no meaning (R109). -/
theorem decode_refuse_low_nibble {op n : Nibble} (hop : op = 0x5 ∨ op = 0x9) (hn : n ≠ 0) (x y : Nibble) :
    decode .refuse (op ++ x ++ y ++ n) = .reject (.nibble59 (op ++ x ++ y ++ n)) := by
  have hn' : n ≠ 0#4 := hn
  obtain rfl | rfl := hop
  · simp [decode, decodeFamily59, hn']
  · simp [decode, decodeFamily59, hn']

/-- Under ignore_low_nibble 5xyN and 9xyN are 5xy0 and 9xy0 (R109). -/
theorem decode_ignoreLowNibble (x y n : Nibble) :
    decode .ignoreLowNibble (0x5#4 ++ x ++ y ++ n) = .ok (.seVxVy x y) ∧
      decode .ignoreLowNibble (0x9#4 ++ x ++ y ++ n) = .ok (.sneVxVy x y) := by
  simp [decode, decodeFamily59]

/-- A step in RUN that fetches a word the decoder refuses is refused (R133). -/
theorem step_of_reject {s : State} {w : Word} (hrun : s.fault = none) (hpc : s.pc.toNat ≤ 0xFFE)
    (hdecode : decode s.cfg.decode59 (fetchWord s) = .reject (.nibble59 w)) :
    step s = .refused (.undefinedLowNibble w) := by
  have hfetch : fetchInBounds s = true := decide_eq_true hpc
  simp [step, hrun, hfetch, hdecode, refuseWord]

/-- Settles O7: the three readings of the decoder, the last of which the step passes on. -/
theorem lowNibbleParameterDecides : Obligations.LowNibbleParameterDecides := by
  intro x y n hn
  obtain ⟨hnop5, hnop9⟩ := decode_strictNop_low_nibble (w := x ++ y ++ n) (by rwa [payloadN_xyn])
  obtain ⟨hbase5, hbase9⟩ := decode_ignoreLowNibble x y n
  refine ⟨word_addr_xyn 0x5 x y n ▸ hnop5, word_addr_xyn 0x9 x y n ▸ hnop9, hbase5, hbase9, ?_⟩
  intro s op hop hrun hpc hcfg hword
  exact step_of_reject hrun hpc (by rw [hcfg, hword, decode_refuse_low_nibble hop hn])

/-- Settles O1 by evaluating the decoder on the nine words. -/
theorem wordsOfTheSpecDecode : Obligations.WordsOfTheSpecDecode := by
  unfold Obligations.WordsOfTheSpecDecode
  decide

end Sys2Proof
end

section
/-! The cycle: a step runs the decoded instruction after phases F and T, what the two phases leave, the countdown as the
timer instructions see it, the no-ops, and the step in HALTED (spec/40_cycle.md R130 to R137; spec/60_exceptions.md
R320, R321; spec/45_timers_keys.md R273, R275, R276). -/

namespace Sys2Proof.Machine

open Sys2Proof.Claims

/-! ## Phases F and T -/

/-- Phase T's countdown, as the number `counted` gives (R321). -/
theorem countDown_ite_toNat (s : State) (timer : Byte) :
    (if countsDownAt s.cfg.timerDivisor (s.tick + 1) then countDown timer else timer).toNat = counted s timer := by
  by_cases hzero : (s.tick + 1) % s.cfg.timerDivisor = 0
  · simp [countsDownAt, counted, hzero, countDown_toNat]
  · simp [countsDownAt, counted, hzero]

theorem beforeExecute_dt_toNat (s : State) : (beforeExecute s).dt.toNat = counted s s.dt := by
  rw [beforeExecute_dt, countDown_ite_toNat]

theorem beforeExecute_st_toNat (s : State) : (beforeExecute s).st.toNat = counted s s.st := by
  rw [beforeExecute_st, countDown_ite_toNat]

/-- Phase F writes PC, phase T the tick and the timers, whether or not it counts down. -/
theorem beforeExecute_frame (s : State) :
    beforeExecute s = { s with pc := (beforeExecute s).pc, tick := (beforeExecute s).tick,
                               dt := (beforeExecute s).dt, st := (beforeExecute s).st } := by
  unfold beforeExecute tickPhase
  split
  · rfl
  · rfl

/-- Settles O9: the two phases component by component, and their frame. -/
theorem fetchAdvanceAndTickPhase : Obligations.FetchAdvanceAndTickPhase :=
  fun s => ⟨beforeExecute_pc_toNat, beforeExecute_tick s, beforeExecute_dt_toNat s, beforeExecute_st_toNat s,
    beforeExecute_frame s⟩

/-! ## Tick and timers across a step -/

/-- No instruction counts a tick. -/
theorem Effect.tick_eq {s t : State} {i : Instr} (h : Effect s i t) : t.tick = s.tick := by
  cases h <;> simp

/-- DT is written only by Fx15. -/
theorem Effect.dt_eq {s t : State} {i : Instr} (h : Effect s i t) (hi : ∀ x, i ≠ .ldDtVx x) : t.dt = s.dt := by
  cases h with
  | delay x => exact absurd rfl (hi x)
  | _ => simp

/-- ST is written only by Fx18. -/
theorem Effect.st_eq {s t : State} {i : Instr} (h : Effect s i t) (hi : ∀ x, i ≠ .ldStVx x) : t.st = s.st := by
  cases h with
  | sound x => exact absurd rfl (hi x)
  | _ => simp

/-- Settles O8: the halted check and the fetch bound pass, and the decoder answers the instruction. -/
theorem stepRunsTheDecodedInstruction : Obligations.StepRunsTheDecodedInstruction :=
  fun _ _ => step_of_runs

/-- A step that commits its fetched instruction answers one of the instruction's effects after phases F and T. -/
theorem effect_of_committed_step {s t : State} {i : Instr} (hrun : runs s i) (h : step s = .next t)
    (hfault : t.fault = none) : ∃ u, Effect (beforeExecute s) i u ∧ t = u.clearRandIn := by
  rw [step_of_runs hrun] at h
  obtain ⟨u, hexec, ⟨-, rfl⟩ | ⟨c, -, rfl⟩⟩ := (commit_next_iff _ _ _).mp h
  · exact ⟨u, effect_of_exec hexec, rfl⟩
  · cases hfault

/-- Settles O15: phases F and T tick and count down; of the effects only Fx15's and Fx18's write a timer after that. -/
theorem everyStepTicksAndCountsDown : Obligations.EveryStepTicksAndCountsDown := by
  intro s t i hrun h hfault
  obtain ⟨u, heff, rfl⟩ := effect_of_committed_step hrun h hfault
  refine ⟨heff.tick_eq.trans (beforeExecute_tick s), fun hi => ?_, fun hi => ?_⟩
  · rw [State.clearRandIn_dt, heff.dt_eq hi, beforeExecute_dt_toNat]
  · rw [State.clearRandIn_st, heff.st_eq hi, beforeExecute_st_toNat]

/-! ## The timer instructions -/

theorem exec_ldVxDt (x : Nibble) (s : State) : exec (.ldVxDt x) s = .next (s.setReg x s.dt) := rfl

theorem exec_ldDtVx (x : Nibble) (s : State) : exec (.ldDtVx x) s = .next { s with dt := s.reg x } := rfl

theorem exec_ldStVx (x : Nibble) (s : State) : exec (.ldStVx x) s = .next { s with st := s.reg x } := rfl

/-- Settles O55: each transfer is one write. -/
theorem timerTransfers : Obligations.TimerTransfers :=
  fun x s => ⟨⟨_, exec_ldVxDt x s, rfl, fun r => State.reg_setReg s x r s.dt⟩, exec_ldDtVx x s, exec_ldStVx x s⟩

/-- A step whose instruction leaves the fault register alone answers the state the instruction does, the random byte
gone. -/
theorem step_of_exec {s u : State} {i : Instr} (hrun : runs s i) (hexec : exec i (beforeExecute s) = .next u)
    (hfault : u.fault = (beforeExecute s).fault) : step s = .next u.clearRandIn := by
  have hnone : u.fault = none := hfault.trans ((beforeExecute_fault s).trans hrun.1)
  rw [step_of_runs hrun, hexec, commit_next _ _ hnone]

/-- Settles O16: the three run at the state phases F and T left, whose DT is counted down and whose registers are those
the step began with. -/
theorem timerInstructionsSeeTheCountdown : Obligations.TimerInstructionsSeeTheCountdown := by
  refine fun s x => ⟨fun hrun => ⟨_, step_of_exec hrun (exec_ldVxDt x _) rfl, ?_⟩,
    fun hrun => ⟨_, step_of_exec hrun (exec_ldDtVx x _) rfl, beforeExecute_reg s x⟩,
    fun hrun => ⟨_, step_of_exec hrun (exec_ldStVx x _) rfl, beforeExecute_reg s x⟩⟩
  rw [State.clearRandIn_reg, State.reg_setReg_same, beforeExecute_dt_toNat]

/-! ## The no-ops -/

/-- A no-op executes to the state itself (R136). -/
theorem exec_of_isNop {i : Instr} (hi : isNop i = true) (s : State) : exec i s = .next s := by
  cases i with
  | nop0 | nop5 | nop8 | nop9 | nopE | nopF => rfl
  | _ => cases hi

/-- Settles O17: the six are no-ops, and a no-op's step commits the state phases F and T left. -/
theorem nopsOnlyAdvanceAndTick : Obligations.NopsOnlyAdvanceAndTick :=
  ⟨fun _ s => ⟨exec_of_isNop rfl s, exec_of_isNop rfl s, exec_of_isNop rfl s, exec_of_isNop rfl s,
      exec_of_isNop rfl s, exec_of_isNop rfl s⟩,
    fun _ _ hrun hi => step_of_exec hrun (exec_of_isNop hi _) rfl⟩

/-! ## HALTED -/

/-- A step in HALTED answers the held fault (R137). -/
theorem step_of_halted {s : State} {c : Fault} (h : s.fault = some c) : step s = .fault c := by
  simp [step, h]

/-- Of the host's moves only reset writes the fault register (R340). -/
theorem hostMove_fault (m : HostMove) (s : State) : (hostMove m s).fault = if m = .reset then none else s.fault := by
  cases m with
  | loadProgram image =>
    simp only [hostMove, loadProgramRom]
    split
    · rfl
    · rfl
  | _ => rfl

/-- Settles O12: the held fault is what the step answers and its result port reads, and only reset clears it. -/
theorem haltedStepReturnsTheHeldFault : Obligations.HaltedStepReturnsTheHeldFault := by
  intro s c h
  rw [step_of_halted h]
  exact ⟨rfl, rfl, fun m => h ▸ hostMove_fault m s⟩

end Sys2Proof.Machine
end

section
/-! Control flow: the jumps, the call and the return as inverse moves of the stack pointer, and the compare skips
(spec/41_control_flow.md R151 to R158; spec/60_exceptions.md R302, R303). -/

namespace Sys2Proof.Machine

open Sys2Proof.Claims

/-! ## Jumps -/

/-- Widening an address keeps its value (R102). -/
@[simp] theorem addrWord_toNat (nnn : Addr12) : (addrWord nnn).toNat = nnn.toNat :=
  BitVec.toNat_setWidth_of_le (by decide)

/-- Widening a byte keeps its value (R11). -/
@[simp] theorem byteWord_toNat (b : Byte) : (byteWord b).toNat = b.toNat :=
  BitVec.toNat_setWidth_of_le (by decide)

/-- The sum of an address and a byte fits in PC, so it is exact (R158). -/
theorem offsetTarget_toNat (nnn : Addr12) (b : Byte) :
    (addrWord nnn + byteWord b).toNat = nnn.toNat + b.toNat := by
  have hn := nnn.isLt
  have hb := b.isLt
  rw [BitVec.toNat_add, addrWord_toNat, byteWord_toNat]
  omega

theorem exec_jp (nnn : Addr12) (s : State) : exec (.jp nnn) s = .next (s.setPc (addrWord nnn)) := rfl

theorem exec_jpV0Nnn (nnn : Addr12) (s : State) :
    exec (.jpV0Nnn nnn) s = .next (s.setPc (addrWord nnn + byteWord (s.reg 0))) := rfl

/-- Settles O32: the jump is one write of PC, and widening the address keeps its value. -/
theorem jumpSetsPc : Obligations.JumpSetsPc :=
  fun nnn s => ⟨_, exec_jp nnn s, addrWord_toNat nnn, rfl⟩

/-- Settles O37: the jump is one write of PC, and the 16-bit sum is exact. -/
theorem offsetJumpAddsV0 : Obligations.OffsetJumpAddsV0 :=
  fun nnn s => ⟨_, exec_jpV0Nnn nnn s, offsetTarget_toNat nnn _, offsetTarget_toNat_le nnn _, rfl⟩

/-! ## Call and return

SP names the next free slot, so at `SP = k.succ` slot `k` is the last one used (R40). -/

/-- 2nnn with a free slot (R153): phase E finds in PC the address after the call. -/
theorem exec_call_of_free {s : State} (nnn : Addr12) (h : s.sp.val < 16) :
    exec (.call nnn) s =
      .next { s.setSlot (s.sp.castLT h) s.pc with sp := (s.sp.castLT h).succ, pc := addrWord nnn } :=
  dif_neg h.ne

theorem exec_call_of_full {s : State} (nnn : Addr12) (h : s.sp.val = 16) :
    exec (.call nnn) s = raiseFault .stackOverflow s :=
  dif_pos h

/-- 00EE with slot `k` the last used (R151). -/
theorem exec_ret_of_used {s : State} {k : Fin 16} (h : s.sp = k.succ) :
    exec .ret s = .next { s with sp := k.castSucc, pc := s.stack[k.val] } := by
  obtain ⟨v, pc, i, stack, sp⟩ := s
  subst h
  rfl

theorem exec_ret_of_empty {s : State} (h : s.sp.val = 0) : exec .ret s = raiseFault .stackUnderflow s :=
  dif_pos h

/-- Settles O33: below 16, SP is the index of a free slot; at 16 the call fails its check. -/
theorem callPushesTheReturnAddress : Obligations.CallPushesTheReturnAddress := by
  refine fun nnn s => ⟨fun hlt => ?_, exec_call_of_full nnn⟩
  refine ⟨_, exec_call_of_free nnn hlt, rfl, addrWord_toNat nnn, fun k => ?_, rfl⟩
  simp only [State.setSlot_stack, Vector.getElem_set, Fin.val_castLT, eq_comm (a := s.sp.val)]

/-- Settles O34: a used SP is the successor of a slot's index; at 0 the return fails its check. -/
theorem returnPopsTheReturnAddress : Obligations.ReturnPopsTheReturnAddress :=
  fun _ => ⟨fun _ hk => ⟨_, exec_ret_of_used (Fin.ext hk), rfl, rfl, rfl⟩, exec_ret_of_empty⟩

/-- Settles O58: an SP above 0 is the successor of a slot's index. -/
theorem returnCompletes : Obligations.ReturnCompletes := by
  intro s hpos
  obtain ⟨k, hk⟩ := Fin.exists_succ_eq.mpr (Fin.pos_iff_ne_zero.mp hpos)
  exact ⟨_, k, exec_ret_of_used hk.symm, congrArg Fin.val hk, rfl, rfl, rfl, rfl, rfl⟩

/-- 00EE at a slot just filled: PC is the address stored there, SP the index of the slot (R151, R153). -/
theorem exec_ret_setSlot (s : State) (k : Fin 16) (a target : Word) :
    exec .ret { s.setSlot k a with sp := k.succ, pc := target } =
      .next { s.setSlot k a with sp := k.castSucc, pc := a } := by
  rw [exec_ret_of_used rfl]
  simp only [State.setSlot_stack, Vector.getElem_set_self]

/-- Settles O35: the return pops the slot the call filled. -/
theorem returnUndoesCall : Obligations.ReturnUndoesCall :=
  fun nnn s hlt => ⟨_, _, exec_call_of_free nnn hlt, exec_ret_setSlot s _ s.pc _, rfl, rfl, rfl⟩

/-! ## Compare skips -/

/-- A skip whose condition decides `p` adds 2 to PC where `p` holds, and changes nothing else. -/
theorem skipIf_eq_of_iff {cond : Bool} {p : Prop} [Decidable p] (h : cond = true ↔ p) (s : State) :
    skipIf cond s = { s with pc := if p then s.pc + 2 else s.pc } := by
  rw [skipIf_eq, State.setPc, if_congr h rfl rfl]

/-- Skip if equal: the condition is equality of the two values (R154, R156). -/
theorem skipIf_beq (a b : Byte) (s : State) :
    skipIf (a == b) s = { s with pc := if a.toNat = b.toNat then s.pc + 2 else s.pc } :=
  skipIf_eq_of_iff (beq_iff_eq.trans BitVec.toNat_inj.symm) s

/-- Skip if not equal: PC stays where the two values are equal (R155, R157). -/
theorem skipIf_bne (a b : Byte) (s : State) :
    skipIf (a != b) s = { s with pc := if a.toNat = b.toNat then s.pc else s.pc + 2 } := by
  rw [skipIf_eq_of_iff (bne_iff_ne.trans BitVec.toNat_ne_iff_ne.symm) s, ite_not]

/-- Settles O36: each of the four is a skip on the equality or the difference of two bytes. -/
theorem compareSkips : Obligations.CompareSkips :=
  fun x y nn s => ⟨congrArg _ (skipIf_beq (s.reg x) nn s), congrArg _ (skipIf_bne (s.reg x) nn s),
    congrArg _ (skipIf_beq (s.reg x) (s.reg y) s), congrArg _ (skipIf_bne (s.reg x) (s.reg y) s)⟩

end Sys2Proof.Machine
end

section
/-! Register loads and arithmetic: an 8xyN with a flag is one `writeResultFlag`, so its statement follows from what that
leaves in every register and from the arithmetic of the result and the flag as bytes (spec/42_alu.md R180 to R193). -/

namespace Sys2Proof.Machine

open Sys2Proof.Claims

/-! ## Result and flag -/

/-- The write of result and flag leaves in each register what the spec's table says, in either order (R181). -/
theorem writeResultFlag_reg_eq_flagged (x : Nibble) (res f : Byte) (s : State) (r : Nibble) :
    (writeResultFlag x res f s).reg r = flagged s x res f r := by
  by_cases hx : x = vf
  · subst hx
    rw [writeResultFlag_reg_vf]
    by_cases hr : r = vf
    · simp [flagged, hr]
    · simp [flagged, hr]
  · simp [writeResultFlag_reg _ _ _ _ hx, flagged, hx]

theorem writeResultFlag_frame (x : Nibble) (res f : Byte) (s : State) :
    writeResultFlag x res f s = { s with v := (writeResultFlag x res f s).v } := by
  unfold writeResultFlag
  split
  · rfl
  · rfl

/-- What an instruction that writes a result and a flag leaves in the state, for a result known by a property. -/
theorem exists_next_flagged {i : Instr} {x : Nibble} {res f : Byte} {s : State} {P : Byte → Prop}
    (hexec : exec i s = .next (writeResultFlag x res f s)) (hres : P res) :
    ∃ t, exec i s = .next t ∧ t = { s with v := t.v } ∧
      ∃ res : Byte, P res ∧ ∀ r, t.reg r = flagged s x res f r :=
  ⟨_, hexec, writeResultFlag_frame x res f s, res, hres, writeResultFlag_reg_eq_flagged x res f s⟩

theorem flagByte_toNat (cond : Bool) : (flagByte cond).toNat = cond.toNat := by
  cases cond
  · rfl
  · rfl

theorem flagByte_decide (p : Prop) [Decidable p] : flagByte (decide p) = if p then 1 else 0 := by
  simp only [flagByte, decide_eq_true_eq]

/-- Bit 0 is the remainder a halving drops (R190). -/
theorem lowBitFlag_toNat (a : Byte) : (lowBitFlag a).toNat = a.toNat % 2 := by
  rw [lowBitFlag, flagByte_toNat, BitVec.getLsbD, Nat.toNat_testBit]
  omega

/-- Bit 7 is the top one, so it alone is left of a division by 128 (R192). -/
theorem highBitFlag_toNat (a : Byte) : (highBitFlag a).toNat = a.toNat / 128 := by
  have ha := a.isLt
  rw [highBitFlag, flagByte_toNat, BitVec.getLsbD, Nat.toNat_testBit]
  omega

/-- Byte subtraction in the form of R180, where 256 comes first so that no difference is negative. -/
theorem byte_sub_toNat (a b : Byte) : (a - b).toNat = (a.toNat + 256 - b.toNat) % 256 := by
  have hb := b.isLt
  rw [BitVec.toNat_sub]
  omega

/-! ## Logic -/

theorem exec_orVxVy (x y : Nibble) (s : State) :
    exec (.orVxVy x y) s = .next (writeResultFlag x (s.reg x ||| s.reg y) 0 s) := rfl

theorem exec_andVxVy (x y : Nibble) (s : State) :
    exec (.andVxVy x y) s = .next (writeResultFlag x (s.reg x &&& s.reg y) 0 s) := rfl

theorem exec_xorVxVy (x y : Nibble) (s : State) :
    exec (.xorVxVy x y) s = .next (writeResultFlag x (s.reg x ^^^ s.reg y) 0 s) := rfl

/-- Settles O39: each of the three writes a bitwise result with the flag 0. -/
theorem logicForcesTheFlagToZero : Obligations.LogicForcesTheFlagToZero := fun x y s =>
  ⟨exists_next_flagged (exec_orVxVy x y s) fun _ => BitVec.getLsbD_or,
    exists_next_flagged (exec_andVxVy x y s) fun _ => BitVec.getLsbD_and,
    exists_next_flagged (exec_xorVxVy x y s) fun _ => BitVec.getLsbD_xor⟩

/-! ## Sums and differences -/

/-- 8xy4, with the carry as the spec writes it (R188). -/
theorem exec_addVxVy (x y : Nibble) (s : State) :
    exec (.addVxVy x y) s = .next (writeResultFlag x (s.reg x + s.reg y)
      (if 255 < (s.reg x).toNat + (s.reg y).toNat then 1 else 0) s) := by
  rw [exec, execAddVxVy, carryFlag, flagByte_decide]

/-- 8xy5, with the no-borrow as the spec writes it (R189). -/
theorem exec_subVxVy (x y : Nibble) (s : State) :
    exec (.subVxVy x y) s = .next (writeResultFlag x (s.reg x - s.reg y)
      (if (s.reg y).toNat ≤ (s.reg x).toNat then 1 else 0) s) := by
  rw [exec, execSubVxVy, noBorrowFlag, flagByte_decide]

/-- 8xy7, with the no-borrow as the spec writes it (R191). -/
theorem exec_subnVxVy (x y : Nibble) (s : State) :
    exec (.subnVxVy x y) s = .next (writeResultFlag x (s.reg y - s.reg x)
      (if (s.reg x).toNat ≤ (s.reg y).toNat then 1 else 0) s) := by
  rw [exec, execSubnVxVy, noBorrowFlag, flagByte_decide]

/-- Settles O40: each of the three writes a sum or difference of bytes with its carry or no-borrow. -/
theorem addAndSubtractSetTheFlag : Obligations.AddAndSubtractSetTheFlag := fun x y s =>
  ⟨exists_next_flagged (exec_addVxVy x y s) (BitVec.toNat_add _ _),
    exists_next_flagged (exec_subVxVy x y s) (byte_sub_toNat _ _),
    exists_next_flagged (exec_subnVxVy x y s) (byte_sub_toNat _ _)⟩

/-! ## Shifts -/

theorem exec_shrVx (x y : Nibble) (s : State) :
    exec (.shrVx x y) s = .next (writeResultFlag x (s.reg x >>> 1) (lowBitFlag (s.reg x)) s) := rfl

theorem exec_shlVx (x y : Nibble) (s : State) :
    exec (.shlVx x y) s = .next (writeResultFlag x (s.reg x <<< 1) (highBitFlag (s.reg x)) s) := rfl

theorem byte_shiftRight_one_toNat (a : Byte) : (a >>> 1).toNat = a.toNat / 2 := by
  rw [BitVec.toNat_ushiftRight, Nat.shiftRight_one]

theorem byte_shiftLeft_one_toNat (a : Byte) : (a <<< 1).toNat = a.toNat * 2 % 256 := by
  rw [BitVec.toNat_shiftLeft, Nat.shiftLeft_eq]

/-- Settles O41: a shift by one halves or doubles Vx, and the flag is the bit it drops. -/
theorem shiftsMoveTheLostBitToTheFlag : Obligations.ShiftsMoveTheLostBitToTheFlag := fun x y s =>
  ⟨⟨_, exec_shrVx x y s, writeResultFlag_frame x _ _ s,
      _, _, byte_shiftRight_one_toNat _, lowBitFlag_toNat _, writeResultFlag_reg_eq_flagged x _ _ s⟩,
    ⟨_, exec_shlVx x y s, writeResultFlag_frame x _ _ s,
      _, _, byte_shiftLeft_one_toNat _, highBitFlag_toNat _, writeResultFlag_reg_eq_flagged x _ _ s⟩⟩

/-! ## The random byte -/

/-- Cxnn with no supplied byte takes the next free byte and counts it (R193; log 8). -/
theorem exec_rnd_of_unsupplied {s : State} (x : Nibble) (nn : Byte) (h : s.randIn = none) :
    exec (.rnd x nn) s =
      .next (State.setReg { s with draws := s.draws + 1 } x (Config.freeByte s.draws &&& nn)) := by
  rw [exec, execRnd, drawRand_free s h]

/-- Settles O42, by whether the host supplied a byte to the step. -/
theorem randomIsAByteAndTheImmediate : Obligations.RandomIsAByteAndTheImmediate := by
  intro x nn s
  obtain hnone | ⟨b, hsome⟩ := Option.eq_none_or_eq_some s.randIn
  · refine ⟨_, _, exec_rnd_of_unsupplied x nn hnone, fun r => State.reg_setReg _ x r _, fun _ hb => ?_,
      fun _ => ⟨rfl, rfl⟩, rfl⟩
    cases hnone.symm.trans hb
  · refine ⟨b, _, exec_rnd_of_supplied x nn hsome, fun r => State.reg_setReg s x r _,
      fun _ hb => ⟨Option.some.inj (hsome.symm.trans hb), rfl⟩, fun hnone => ?_, rfl⟩
    cases hsome.symm.trans hnone

/-! ## Loads and the immediate sum -/

theorem exec_ldVxNn (x : Nibble) (nn : Byte) (s : State) : exec (.ldVxNn x nn) s = .next (s.setReg x nn) := rfl

theorem exec_addVxNn (x : Nibble) (nn : Byte) (s : State) :
    exec (.addVxNn x nn) s = .next (s.setReg x (s.reg x + nn)) := rfl

theorem exec_ldVxVy (x y : Nibble) (s : State) : exec (.ldVxVy x y) s = .next (s.setReg x (s.reg y)) := rfl

/-- Settles O38: each of the three is one register write, of VF like of any other register. -/
theorem registerLoadsAndAddImmediate : Obligations.RegisterLoadsAndAddImmediate := by
  refine fun x y nn s => ⟨⟨_, exec_ldVxNn x nn s, rfl, fun r => State.reg_setReg s x r _⟩,
    ⟨_, exec_addVxNn x nn s, rfl, fun r => ?_⟩, ⟨_, exec_ldVxVy x y s, rfl, fun r => State.reg_setReg s x r _⟩⟩
  rw [State.reg_setReg, apply_ite BitVec.toNat, BitVec.toNat_add]

end Sys2Proof.Machine
end

section
/-! The index register and the memory transfers: which instructions write I, what each leaves in I, in memory or in the
registers, and the block load as the inverse of the block store (spec/43_index_memory.md R220 to R226). -/

namespace Sys2Proof.Machine

open Sys2Proof.Claims

/-! ## Who writes I -/

/-- The writers of I are Annn, Fx1E and Fx29. -/
theorem family_eq_index_iff {i : Instr} :
    family i = .index ↔ (∃ nnn, i = .ldINnn nnn) ∨ ∃ x, i = .addIVx x ∨ i = .ldFVx x := by
  cases i <;> simp [family]

/-- I is written only by the family `index`. -/
theorem Effect.i_eq {s t : State} {i : Instr} (h : Effect s i t) (hi : family i ≠ .index) : t.i = s.i := by
  cases h with
  | index hindex _ => exact absurd hindex hi
  | _ => simp

/-- Settles O20: only the family `index` writes I, and the excluded instructions are that family. -/
theorem onlyThreeInstructionsWriteI : Obligations.OnlyThreeInstructionsWriteI := by
  intro i s t h hi
  have hindex : family i ≠ .index := fun hf => by
    obtain ⟨nnn, hload⟩ | ⟨x, hadd | hfont⟩ := family_eq_index_iff.mp hf
    · exact (hi nnn 0).1 hload
    · exact (hi 0 x).2.1 hadd
    · exact (hi 0 x).2.2 hfont
  exact (effect_of_exec h).i_eq hindex

/-! ## Loads of I -/

theorem exec_ldINnn (nnn : Addr12) (s : State) : exec (.ldINnn nnn) s = .next (s.setI (addrWord nnn)) := rfl

theorem exec_ldFVx_of_digit {s : State} {x : Nibble} (h : (s.reg x).toNat < 16) :
    exec (.ldFVx x) s = .next (s.setI (byteWord (s.reg x) * 5)) :=
  if_pos h

theorem exec_ldFVx_of_no_digit {s : State} {x : Nibble} (h : 16 ≤ (s.reg x).toNat) :
    exec (.ldFVx x) s = .next s :=
  if_neg (Nat.not_lt.mpr h)

/-- Five times a byte fits in I, so it is exact (R223). -/
theorem glyphAddr_toNat (b : Byte) : (byteWord b * 5).toNat = b.toNat * 5 := by
  have hb := b.isLt
  have hfive : (5 : Word).toNat = 5 := rfl
  rw [BitVec.toNat_mul, byteWord_toNat, hfive]
  omega

/-- Settles O43: the two loads are each one write of I, and a value above 15 fails the check of Fx29. -/
theorem indexLoads : Obligations.IndexLoads := fun nnn _ s =>
  ⟨⟨_, exec_ldINnn nnn s, addrWord_toNat nnn, rfl⟩,
    fun h => ⟨_, exec_ldFVx_of_digit h, glyphAddr_toNat _, rfl⟩, exec_ldFVx_of_no_digit⟩

/-! ## The sum in I -/

/-- Fx1E adds where the parameter takes any sum, or the sum fits (R222). -/
theorem exec_addIVx_of_allowed {s : State} {x : Nibble}
    (h : s.cfg.iAddOverflow = .wrap16 ∨ s.i.toNat + (s.reg x).toNat ≤ 0xFFFF) :
    exec (.addIVx x) s = .next (s.setI (s.i + byteWord (s.reg x))) := by
  refine if_neg fun ⟨hfault, hover⟩ => ?_
  obtain hwrap | hfits := h
  · cases hwrap.symm.trans hfault
  · exact Nat.not_le.mpr hover hfits

theorem exec_addIVx_of_overflow {s : State} {x : Nibble} (hfault : s.cfg.iAddOverflow = .fault)
    (hover : 0xFFFF < s.i.toNat + (s.reg x).toNat) : exec (.addIVx x) s = raiseFault .indexOverflow s :=
  if_pos ⟨hfault, hover⟩

theorem indexSum_toNat (a : Word) (b : Byte) : (a + byteWord b).toNat = (a.toNat + b.toNat) % 65536 := by
  rw [BitVec.toNat_add, byteWord_toNat]

/-- Settles O44: the sum is one write of I, and a sum the parameter forbids is `raiseFault` before it. -/
theorem indexAdd : Obligations.IndexAdd := fun _ _ =>
  ⟨fun h => ⟨_, exec_addIVx_of_allowed h, indexSum_toNat _ _, rfl⟩, exec_addIVx_of_overflow⟩

/-! ## Stores -/

/-- A block write leaves every byte below I and from its end on (R220). -/
theorem writeBlock_readByte_outside (s : State) {bytes : List Byte} {a : Nat}
    (h : a < effAddr s 0 ∨ effAddr s bytes.length ≤ a) : (writeBlock s bytes).readByte a = s.readByte a := by
  rw [writeBlock_readByte, if_neg]
  unfold effAddr at h
  omega

/-- Settles O45: the block of the three digits, read digit by digit, and the bytes outside it. -/
theorem bcdStoresThreeDigits : Obligations.BcdStoresThreeDigits := by
  intro x s h
  refine ⟨_, exec_ldBVx_of_inside x h, rfl, ?_, readByte_storedDigits s x 1, ?_, fun a h0 h1 h2 => ?_⟩
  · have hhundreds : (s.reg x).toNat / 100 < 10 := Nat.div_lt_of_lt_mul (Nat.lt_trans (s.reg x).isLt (by decide))
    exact (readByte_storedDigits s x 0).trans (Nat.mod_eq_of_lt hhundreds)
  · exact (readByte_storedDigits s x 2).trans (congrArg (· % 10) (Nat.div_one _))
  · apply writeBlock_readByte_outside
    show a < effAddr s 0 ∨ effAddr s 3 ≤ a
    unfold effAddr at *
    omega

/-- Settles O46: the block of the registers, read register by register, and the bytes outside it. -/
theorem blockStoreWritesTheRegisters : Obligations.BlockStoreWritesTheRegisters := by
  refine fun x s h => ⟨_, exec_ldMemVx_of_inside h, rfl, fun r hr => readByte_storedRegs s hr, fun a ha => ?_⟩
  apply writeBlock_readByte_outside
  rw [length_regBlock]
  exact ha

/-! ## The block load -/

theorem exec_ldVxMem_of_inside {s : State} {x : Nibble} (h : effAddr s x.toNat ≤ 0xFFF) :
    exec (.ldVxMem x) s = .next (loadRegs s (readBlock s (x.toNat + 1))) :=
  if_pos ((rangeInBounds_succ_iff s _).mpr h)

/-- Fx65 leaves the byte at I + r in register r up to x, and the registers above x as they were (R226). -/
theorem reg_loadedBlock (s : State) (x r : Nibble) :
    (loadRegs s (readBlock s (x.toNat + 1))).reg r =
      if r.toNat ≤ x.toNat then s.readByte (effAddr s r.toNat) else s.reg r := by
  rw [loadRegs_reg, getD_readBlock]
  simp only [Nat.lt_succ_iff, effAddr]

/-- Settles O47: the load writes the register file alone, each register from its byte. -/
theorem blockLoadReadsTheRegisters : Obligations.BlockLoadReadsTheRegisters :=
  fun x s h => ⟨_, exec_ldVxMem_of_inside h, rfl, fun _ => rfl, reg_loadedBlock s x⟩

/-- Settles O49: the store keeps I (O46), so the load (O47) reads the addresses the store wrote. -/
theorem blockLoadUndoesBlockStore : Obligations.BlockLoadUndoesBlockStore := by
  intro x s v' h
  obtain ⟨t, hstore, hframe, hbytes, -⟩ := blockStoreWritesTheRegisters x s h
  have hI : t.i = s.i := by rw [hframe]
  have haddr (k : Nat) : effAddr { t with v := v' } k = effAddr s k := congrArg (·.toNat + k) hI
  obtain ⟨u, hload, huframe, -, hregs⟩ := blockLoadReadsTheRegisters x { t with v := v' } (haddr _ ▸ h)
  refine ⟨t, u, hstore, hload, huframe, fun r hr => ?_⟩
  calc u.reg r = t.readByte (effAddr { t with v := v' } r.toNat) := (hregs r).trans (if_pos hr)
    _ = t.readByte (effAddr s r.toNat) := by rw [haddr]
    _ = s.reg r := hbytes r hr

end Sys2Proof.Machine
end

section
/-! The display: a draw XORs a mask of cells onto the framebuffer and collects the set pixels under it, first for one sprite
bit, then for a row, then for the whole sprite; the statements on Dxyn follow from the mask (spec/44_display.md R250 to
R255). -/

namespace Sys2Proof.Machine

open Sys2Proof.Claims

/-! ## Pixels -/

/-- A framebuffer is known by its pixels. -/
theorem fb_ext {a b : Framebuffer} (h : ∀ c r, pixel a c r = pixel b c r) : a = b :=
  Vector.ext fun r hr => Vector.ext fun c hc => h ⟨c, hc⟩ ⟨r, hr⟩

@[simp] theorem pixel_blank (c : Fin 64) (r : Fin 32) : pixel Framebuffer.blank c r = false := by
  simp [pixel, Framebuffer.blank]

theorem pixel_flipPixel (fb : Framebuffer) (c c' : Fin 64) (r r' : Fin 32) :
    pixel (flipPixel fb c r) c' r' = (pixel fb c' r' ^^ (decide (c' = c) && decide (r' = r))) := by
  by_cases hr : r' = r
  · subst hr
    by_cases hc : c' = c
    · subst hc
      simp [pixel, flipPixel]
    · simp [pixel, flipPixel, hc, Vector.getElem_set_ne _ _ (Fin.val_ne_of_ne (Ne.symm hc))]
  · simp [pixel, flipPixel, hr, Vector.getElem_set_ne _ _ (Fin.val_ne_of_ne (Ne.symm hr))]

theorem exec_cls (s : State) : exec .cls s = .next { s with fb := Framebuffer.blank, redraw := true } := rfl

/-- Settles O51: the framebuffer 00E0 writes is the blank one. -/
theorem clearScreen : Obligations.ClearScreen := fun s => ⟨_, exec_cls s, pixel_blank, rfl, rfl⟩

/-! ## Drawing a mask -/

/-- From `p` to `q`, each a framebuffer and a collision flag, the cells of the mask `m` are drawn: each pixel is XORed
with the mask, and the flag gathers the pixels under it (R253). -/
structure Draws (m : Fin 64 → Fin 32 → Bool) (p q : Framebuffer × Bool) : Prop where
  pixel_eq : ∀ c r, pixel q.1 c r = (pixel p.1 c r ^^ m c r)
  hit_iff : q.2 = true ↔ p.2 = true ∨ ∃ c r, m c r = true ∧ pixel p.1 c r = true

theorem Draws.of_empty {m : Fin 64 → Fin 32 → Bool} (h : ∀ c r, m c r = false) (p : Framebuffer × Bool) :
    Draws m p p where
  pixel_eq c r := by simp [h]
  hit_iff := by simp [h]

/-- Two disjoint masks drawn in turn are their union drawn: the second sees the pixels the first saw. -/
theorem Draws.union {m₁ m₂ m : Fin 64 → Fin 32 → Bool} {p q u : Framebuffer × Bool} (h₁ : Draws m₁ p q)
    (h₂ : Draws m₂ q u) (hm : ∀ c r, m c r = (m₁ c r || m₂ c r)) (hdisj : ∀ c r, m₂ c r = true → m₁ c r = false) :
    Draws m p u where
  pixel_eq c r := by
    rw [h₂.pixel_eq, h₁.pixel_eq, hm]
    cases hsecond : m₂ c r with
    | false => simp
    | true => simp [hdisj c r hsecond]
  hit_iff := by
    have hseen : (∃ c r, m₂ c r = true ∧ pixel q.1 c r = true) ↔ ∃ c r, m₂ c r = true ∧ pixel p.1 c r = true :=
      exists₂_congr fun c r => and_congr_right fun hsecond => by simp [h₁.pixel_eq, hdisj c r hsecond]
    simp only [h₂.hit_iff, h₁.hit_iff, hseen, hm, Bool.or_eq_true, or_and_right, exists_or, or_assoc]

/-! ## The masks of a bit, of a row and of a sprite -/

/-- How many columns right of column X modulo 64 a column is, with wrap-around (R253). -/
def colOffset (X : Nat) (c : Fin 64) : Nat := (c.val + 64 - X % 64) % 64

/-- How many rows below row Y modulo 32 a row is, with wrap-around (R253). -/
def rowOffset (Y : Nat) (r : Fin 32) : Nat := (r.val + 32 - Y % 32) % 32

theorem eq_wrapCol_iff {X k : Nat} (hk : k < 64) (c : Fin 64) : c = wrapCol (X + k) ↔ colOffset X c = k := by
  have hc := c.isLt
  simp only [Fin.ext_iff, wrapCol, Fin.val_ofNat, colOffset]
  omega

theorem eq_wrapRow_iff (Y : Nat) (r : Fin 32) : r = wrapRow Y ↔ rowOffset Y r = 0 := by
  have hr := r.isLt
  simp only [Fin.ext_iff, wrapRow, Fin.val_ofNat, rowOffset]
  omega

/-- Below the first row, offsets from the next row are one less. -/
theorem rowOffset_succ {Y : Nat} {r : Fin 32} (h : rowOffset Y r ≠ 0) : rowOffset Y r = rowOffset (Y + 1) r + 1 := by
  have hr := r.isLt
  unfold rowOffset at *
  omega

/-- The last row downward from row Y + 1 is row Y. -/
theorem rowOffset_succ_of_first {Y : Nat} {r : Fin 32} (h : rowOffset Y r = 0) : rowOffset (Y + 1) r = 31 := by
  have hr := r.isLt
  unfold rowOffset at *
  omega

/-- The cell of bit `k` of a sprite byte, if the bit is set. -/
def bitMask (X : Nat) (py : Fin 32) (b : Byte) (k : Nat) (c : Fin 64) (r : Fin 32) : Bool :=
  spriteBit b k && (decide (c = wrapCol (X + k)) && decide (r = py))

/-- The cells of the set bits among the first `k` of a sprite byte. -/
def rowMask (X : Nat) (py : Fin 32) (b : Byte) (k : Nat) (c : Fin 64) (r : Fin 32) : Bool :=
  decide (colOffset X c < k) && spriteBit b (colOffset X c) && decide (r = py)

/-- The cells of the set bits of a sprite. -/
def spriteMask (X Y : Nat) (bytes : List Byte) (c : Fin 64) (r : Fin 32) : Bool :=
  decide (colOffset X c < 8) && decide (rowOffset Y r < bytes.length) &&
    spriteBit (bytes.getD (rowOffset Y r) 0) (colOffset X c)

theorem rowMask_succ {k : Nat} (hk : k < 64) (X : Nat) (py : Fin 32) (b : Byte) (c : Fin 64) (r : Fin 32) :
    rowMask X py b (k + 1) c r = (rowMask X py b k c r || bitMask X py b k c r) := by
  simp only [rowMask, bitMask, eq_wrapCol_iff hk, Nat.lt_succ_iff_lt_or_eq]
  by_cases heq : colOffset X c = k
  · simp [heq]
  · simp [heq]

/-- Bit `k` lies outside the first `k` bits. -/
theorem rowMask_of_bitMask {k : Nat} (hk : k < 64) {X : Nat} {py : Fin 32} {b : Byte} {c : Fin 64} {r : Fin 32}
    (h : bitMask X py b k c r = true) : rowMask X py b k c r = false := by
  simp only [bitMask, Bool.and_eq_true, decide_eq_true_eq, eq_wrapCol_iff hk] at h
  obtain ⟨-, hcol, -⟩ := h
  simp [rowMask, hcol]

theorem spriteMask_nil (X Y : Nat) (c : Fin 64) (r : Fin 32) : spriteMask X Y [] c r = false := by
  simp [spriteMask]

theorem spriteMask_cons {bs : List Byte} (hbs : bs.length < 32) (X Y : Nat) (b : Byte) (c : Fin 64) (r : Fin 32) :
    spriteMask X Y (b :: bs) c r = (rowMask X (wrapRow Y) b 8 c r || spriteMask X (Y + 1) bs c r) := by
  simp only [spriteMask, rowMask, eq_wrapRow_iff]
  by_cases hfirst : rowOffset Y r = 0
  · have hlast : ¬ 31 < bs.length := by omega
    simp [hfirst, rowOffset_succ_of_first hfirst, hlast]
  · simp [rowOffset_succ hfirst]

/-- The rows after the first lie outside it, as a sprite has at most 32. -/
theorem rowMask_of_spriteMask_succ {bs : List Byte} (hbs : bs.length < 32) {X Y : Nat} {b : Byte} {c : Fin 64}
    {r : Fin 32} (h : spriteMask X (Y + 1) bs c r = true) : rowMask X (wrapRow Y) b 8 c r = false := by
  simp only [spriteMask, Bool.and_eq_true, decide_eq_true_eq] at h
  obtain ⟨⟨-, hlt⟩, -⟩ := h
  have hlater : rowOffset Y r ≠ 0 := fun hfirst => by
    have hlast := rowOffset_succ_of_first hfirst
    omega
  simp [rowMask, eq_wrapRow_iff, hlater]

/-! ## The draws of a bit, of a row and of a sprite -/

theorem draws_drawBit (X : Nat) (py : Fin 32) (b : Byte) (p : Framebuffer × Bool) (k : Nat) :
    Draws (bitMask X py b k) p (drawBit X py b p k) := by
  unfold drawBit
  split
  · next hset =>
    exact ⟨fun c r => by rw [pixel_flipPixel, bitMask, hset, Bool.true_and], by simp [bitMask, hset]⟩
  · next hclear => exact .of_empty (fun c r => by simp [bitMask, hclear]) p

/-- The first `k` bits of a sprite byte, by induction on `k`: their cells are distinct columns. -/
theorem draws_foldl_drawBit {k : Nat} (hk : k ≤ 64) (X : Nat) (py : Fin 32) (b : Byte) (p : Framebuffer × Bool) :
    Draws (rowMask X py b k) p ((List.range k).foldl (drawBit X py b) p) := by
  induction k with
  | zero => exact .of_empty (fun c r => by simp [rowMask]) p
  | succ k ih =>
    rw [List.range_succ, List.foldl_append]
    exact (ih (Nat.le_of_lt hk)).union (draws_drawBit X py b _ k) (rowMask_succ hk X py b)
      fun _ _ => rowMask_of_bitMask hk

theorem draws_drawRow (X : Nat) (py : Fin 32) (b : Byte) (p : Framebuffer × Bool) :
    Draws (rowMask X py b 8) p (drawRow X py b p) :=
  draws_foldl_drawBit (by decide) X py b p

/-- A sprite of at most 32 bytes, by induction on the bytes: they fall on distinct rows. -/
theorem draws_drawRows {bytes : List Byte} (h : bytes.length ≤ 32) (X Y : Nat) (p : Framebuffer × Bool) :
    Draws (spriteMask X Y bytes) p (drawRows X Y bytes p) := by
  induction bytes generalizing Y p with
  | nil => exact .of_empty (spriteMask_nil X Y) p
  | cons b bs ih =>
    exact (draws_drawRow X (wrapRow Y) b p).union (ih (Nat.le_of_lt h) (Y + 1) _) (spriteMask_cons h X Y b)
      fun _ _ => rowMask_of_spriteMask_succ h

/-! ## Dxyn -/

/-- The cells `execDrw` draws are those the statements say the sprite covers. -/
theorem spriteMask_eq_spriteCovers (s : State) (x y n : Nibble) :
    spriteMask (drawX s x) (drawY s y) (readBlock s n.toNat) = spriteCovers s x y n := by
  funext c r
  simp only [spriteMask, spriteCovers, length_readBlock, getD_readBlock, colOffset, rowOffset, drawX, drawY,
    Nat.mod_mod, spriteBit]
  split
  · rfl
  · next hdy => simp [hdy]

/-- Dxyn within bounds draws the cells the sprite covers, from a clear collision flag. -/
theorem exec_drw_of_inside {s : State} {n : Nibble} (x y : Nibble) (h : spriteInBounds s n) :
    ∃ q, Draws (spriteCovers s x y n) (s.fb, false) q ∧
      exec (.drw x y n) s = .next { s.setReg vf (flagByte q.2) with fb := q.1, redraw := true } := by
  have hlen : (readBlock s n.toNat).length ≤ 32 := by
    have hn := n.isLt
    rw [length_readBlock]
    omega
  exact ⟨_, spriteMask_eq_spriteCovers s x y n ▸ draws_drawRows hlen (drawX s x) (drawY s y) (s.fb, false),
    if_pos ((rangeInBounds_iff_spriteInBounds s n).mpr h)⟩

/-- From a clear flag, the flag after the draw says whether it collides. -/
theorem Draws.hit_iff_collides {s : State} {x y n : Nibble} {q : Framebuffer × Bool}
    (h : Draws (spriteCovers s x y n) (s.fb, false) q) : q.2 = true ↔ collides s x y n := by
  simp [h.hit_iff, collides]

/-- Settles O52: the pixels and the flag are those of the drawn mask, and the one register written is VF. -/
theorem drawXorsTheSprite : Obligations.DrawXorsTheSprite := by
  intro x y n s h
  obtain ⟨q, hdraws, hexec⟩ := exec_drw_of_inside x y h
  have hflag := State.reg_setReg_same s vf (flagByte q.2)
  refine ⟨_, hexec, hdraws.pixel_eq, fun hc => ?_, fun hc => ?_, fun r hr => ?_, rfl, rfl⟩
  · exact hflag.trans (if_pos (hdraws.hit_iff_collides.mpr hc))
  · exact hflag.trans (if_neg fun hq => hc (hdraws.hit_iff_collides.mp hq))
  · exact (State.reg_setReg s vf r _).trans (if_neg hr)

/-- With VF put back, the state after a draw is the one before it but for framebuffer and redraw. -/
theorem setReg_vf_of_drawn {s t : State} (hframe : t = { s with v := t.v, fb := t.fb, redraw := t.redraw })
    (hregs : ∀ r, r ≠ vf → t.reg r = s.reg r) :
    t.setReg vf (s.reg vf) = { s with fb := t.fb, redraw := t.redraw } := by
  have hv : (t.setReg vf (s.reg vf)).v = s.v := State.v_ext _ _ fun r => by
    rw [State.reg_setReg]
    split
    · next hr => rw [hr]
    · next hr => exact hregs r hr
  rw [hframe] at hv ⊢
  exact congrArg (fun v => { s with v := v, fb := t.fb, redraw := t.redraw }) hv

/-- Settles O53: with VF put back the second draw covers the same cells (O52), so each of them flips back, and the second
draw sees set just the covered pixels that were clear. -/
theorem drawTwiceRestores : Obligations.DrawTwiceRestores := by
  intro x y n s h
  obtain ⟨t, hfirst, hpixel, -, -, hregs, -, hframe⟩ := drawXorsTheSprite x y n s h
  obtain ⟨u, hsecond, hpixel', hhit, hmiss, -⟩ :=
    drawXorsTheSprite x y n { s with fb := t.fb, redraw := t.redraw } h
  refine ⟨t, u, hfirst, (setReg_vf_of_drawn hframe hregs).symm ▸ hsecond, fb_ext fun c r => ?_, ?_, ?_⟩
  · calc pixel u.fb c r = (pixel t.fb c r ^^ spriteCovers s x y n c r) := hpixel' c r
      _ = pixel s.fb c r := by rw [hpixel, Bool.xor_assoc, Bool.xor_self, Bool.xor_false]
  · rintro ⟨c, r, hcov, hclear⟩
    refine hhit ⟨c, r, hcov, (hpixel c r).trans ?_⟩
    rw [hclear, hcov]
    rfl
  · intro hset
    refine hmiss fun ⟨c, r, (hcov : spriteCovers s x y n c r = true), hpix⟩ => ?_
    have hclear := hpixel c r
    rw [hset c r hcov, hcov] at hclear
    cases hpix.symm.trans hclear

end Sys2Proof.Machine
end

section
/-! The keys: the two skips on the key a register names, the least pressed key, and the wait for one
(spec/45_timers_keys.md R270 to R274; spec/40_cycle.md R138). -/

namespace Sys2Proof.Machine

open Sys2Proof.Claims

/-! ## Key skips -/

theorem keyFlag_of_index {b : Byte} {k : Fin 16} (s : State) (h : b.toNat = k.val) :
    keyFlag s b = some s.keys[k.val] := by
  simp [keyFlag, h]

theorem keyFlag_of_no_index {b : Byte} (s : State) (h : 16 ≤ b.toNat) : keyFlag s b = none :=
  dif_neg (Nat.not_lt.mpr h)

theorem exec_skp_of_index {s : State} {x : Nibble} {k : Fin 16} (h : (s.reg x).toNat = k.val) :
    exec (.skp x) s = .next { s with pc := if s.keys[k.val] = true then s.pc + 2 else s.pc } := by
  have hcond : (keyFlag s (s.reg x) == some true) = true ↔ s.keys[k.val] = true := by simp [keyFlag_of_index s h]
  rw [exec, execSkp, skipIf_eq_of_iff hcond]

theorem exec_sknp_of_index {s : State} {x : Nibble} {k : Fin 16} (h : (s.reg x).toNat = k.val) :
    exec (.sknp x) s = .next { s with pc := if s.keys[k.val] = true then s.pc else s.pc + 2 } := by
  have hcond : (keyFlag s (s.reg x) == some false) = true ↔ ¬ s.keys[k.val] = true := by simp [keyFlag_of_index s h]
  rw [exec, execSknp, skipIf_eq_of_iff hcond, ite_not]

/-- An index above 0xF names no key, so neither skip's condition holds (R270). -/
theorem exec_keySkips_of_no_index {s : State} {x : Nibble} (h : 16 ≤ (s.reg x).toNat) :
    exec (.skp x) s = .next s ∧ exec (.sknp x) s = .next s := by
  rw [exec, execSkp, exec, execSknp, keyFlag_of_no_index s h]
  exact ⟨rfl, rfl⟩

/-- Settles O54: below 16 Vx names a key, whose flag decides the skips; from 16 on it names none. -/
theorem keySkips : Obligations.KeySkips :=
  fun _ _ => ⟨fun _ h => ⟨exec_skp_of_index h, exec_sknp_of_index h⟩, exec_keySkips_of_no_index⟩

/-! ## The key wait -/

/-- The least pressed key is the pressed one with none pressed below it. -/
theorem lowestKey_of_least {s : State} {k : Fin 16} (hk : s.keys[k.val] = true)
    (hleast : ∀ j : Fin 16, j.val < k.val → s.keys[j.val] = false) : lowestKey s = some k.val := by
  refine List.findIdx?_eq_some_iff_getElem.mpr ⟨by simp, by simpa using hk, fun j hj => ?_⟩
  simpa using hleast ⟨j, hj.trans k.isLt⟩ hj

theorem lowestKey_of_no_key {s : State} (h : ∀ k : Fin 16, s.keys[k.val] = false) : lowestKey s = none := by
  refine List.findIdx?_eq_none_iff.mpr fun flag hflag => ?_
  obtain ⟨k, hk, rfl⟩ := Vector.mem_iff_getElem.mp (Vector.mem_toList_iff.mp hflag)
  exact h ⟨k, hk⟩

/-- Fx0A with a key pressed is one register write (R274). -/
theorem exec_ldVxK_of_pressed {s : State} {k : Nat} (x : Nibble) (h : lowestKey s = some k) :
    exec (.ldVxK x) s = .next (s.setReg x (BitVec.ofNat 8 k)) := by
  rw [exec, execLdVxK, h]

/-- Fx0A with no key pressed puts PC back (R274). -/
theorem exec_ldVxK_of_no_key {s : State} (x : Nibble) (h : ∀ k : Fin 16, s.keys[k.val] = false) :
    exec (.ldVxK x) s = .next (s.setPc (s.pc - 2)) := by
  rw [exec, execLdVxK, lowestKey_of_no_key h]

/-- A key's index fits in a register. -/
theorem keyIndex_toNat (k : Fin 16) : (BitVec.ofNat 8 k.val).toNat = k.val :=
  Nat.mod_eq_of_lt (k.isLt.trans (by decide))

/-- Settles O56: the search answers the least pressed key, which is written to Vx, or none, and PC goes back. -/
theorem keyWaitTakesTheLeastKey : Obligations.KeyWaitTakesTheLeastKey := by
  refine fun x s => ⟨fun k hk hleast => ?_, exec_ldVxK_of_no_key x⟩
  refine ⟨_, exec_ldVxK_of_pressed x (lowestKey_of_least hk hleast), rfl, fun r => ?_⟩
  rw [State.reg_setReg, apply_ite BitVec.toNat, keyIndex_toNat]

/-- Putting PC back undoes the fetch advance, so of phases F and T only tick and timers are left. -/
theorem beforeExecute_putBack (s : State) :
    (beforeExecute s).setPc ((beforeExecute s).pc - 2) =
      { s with tick := s.tick + 1, dt := (beforeExecute s).dt, st := (beforeExecute s).st } := by
  rw [beforeExecute_pc, BitVec.add_sub_cancel, beforeExecute_frame s, beforeExecute_tick]
  rfl

/-- Settles O57: the keys are those before phases F and T, so the instruction finds none pressed and puts PC back. -/
theorem keyWaitStepStaysAndTicks : Obligations.KeyWaitStepStaysAndTicks := by
  intro x s hrun hkeys
  have hexec := exec_ldVxK_of_no_key (s := beforeExecute s) x (by simpa using hkeys)
  rw [beforeExecute_putBack] at hexec
  exact ⟨_, step_of_exec hrun hexec (beforeExecute_fault s).symm, rfl, rfl, rfl⟩

end Sys2Proof.Machine
end

section
/-! The faults: a faulting step is precise, and a step raises the fault of the cause table and no other
(spec/60_exceptions.md R300 to R309); and who reads the host's random byte (R332). -/

namespace Sys2Proof.Machine

open Sys2Proof.Claims

/-! ## The fault register across a step -/

/-- Settles O13: a committed step answers a clear fault register, and the two other ways to a next state raise the fault
at the state the step began at. -/
theorem faultingStepDiscardsEveryWrite : Obligations.FaultingStepDiscardsEveryWrite := by
  intro s t c _ h hfault
  refine ⟨?_, by simp [h, resultOf, hfault]⟩
  obtain ⟨-, ⟨-, rfl⟩ | ⟨_, u, -, -, -, ⟨hnone, rfl⟩ | ⟨d, -, rfl⟩⟩⟩ := step_next_cases h
  · cases hfault
    rfl
  · cases hnone.symm.trans hfault
  · cases hfault
    rfl

/-- The answer `r` of phase E at `s` is a next state whose fault register holds the raised fault, or what it held if
none is raised. -/
def AnswersFault (s : State) (r : Result) (raised : Option Fault) : Prop :=
  ∃ t, r = .next t ∧ t.fault = raised.or s.fault

/-- An instruction that raises its one fault when a check fails, and else leaves the fault register alone. -/
theorem answersFault_of_check {s : State} {r : Result} {c : Fault} {fails : Prop} [Decidable fails]
    (hraise : fails → r = raiseFault c s) (hpass : ¬ fails → ∃ t, r = .next t ∧ t.fault = s.fault) :
    AnswersFault s r (if fails then some c else none) := by
  split
  · next h => exact ⟨_, hraise h, rfl⟩
  · next h => exact hpass h

/-- The bound of Dxyn in the cause table: the last byte of a sprite that has one is past 0xFFF (R305). -/
theorem sprite_past_memory_iff (s : State) (n : Nibble) :
    0 < n.toNat ∧ 0xFFF < s.i.toNat + n.toNat - 1 ↔ ¬ spriteInBounds s n := by
  have hzero : n = 0 ↔ n.toNat = 0 := BitVec.toNat_inj.symm
  rw [spriteInBounds, hzero]
  omega

/-- Executing raises exactly the fault of the cause table (R301): seven instructions have a check, the others write no
fault register. -/
theorem exec_answersFault_faultOf (s : State) (i : Instr) : AnswersFault s (exec i s) (faultOf s i) := by
  cases i with
  | call nnn =>
    refine answersFault_of_check (exec_call_of_full nnn) fun hfree => ?_
    exact ⟨_, exec_call_of_free nnn (by omega), rfl⟩
  | ret =>
    exact answersFault_of_check exec_ret_of_empty fun hused => ⟨_, dif_neg hused, rfl⟩
  | drw x y n =>
    refine answersFault_of_check (fun h => exec_drw_of_outside x y ((sprite_past_memory_iff s n).mp h)) fun h => ?_
    obtain ⟨q, -, hexec⟩ := exec_drw_of_inside x y (not_not.mp (mt (sprite_past_memory_iff s n).mpr h))
    exact ⟨_, hexec, rfl⟩
  | ldBVx x =>
    exact answersFault_of_check (exec_ldBVx_of_outside x) fun h => ⟨_, exec_ldBVx_of_inside x (Nat.not_lt.mp h), rfl⟩
  | ldMemVx =>
    exact answersFault_of_check exec_ldMemVx_of_outside fun h => ⟨_, exec_ldMemVx_of_inside (Nat.not_lt.mp h), rfl⟩
  | ldVxMem =>
    exact answersFault_of_check exec_ldVxMem_of_outside fun h => ⟨_, exec_ldVxMem_of_inside (Nat.not_lt.mp h), rfl⟩
  | addIVx =>
    exact answersFault_of_check (fun ⟨hfault, hover⟩ => exec_addIVx_of_overflow hfault hover)
      fun h => ⟨_, if_neg h, rfl⟩
  | orVxVy | andVxVy | xorVxVy | addVxVy | subVxVy | shrVx | subnVxVy | shlVx =>
    exact ⟨_, rfl, writeResultFlag_fault _ _ _ s⟩
  | seVxNn | sneVxNn | seVxVy | sneVxVy | skp | sknp => exact ⟨_, rfl, skipIf_fault _ s⟩
  | rnd => exact ⟨_, rfl, drawRand_fault s⟩
  | ldFVx =>
    simp only [exec, execLdFVx]
    split
    · exact ⟨_, rfl, rfl⟩
    · exact ⟨_, rfl, rfl⟩
  | ldVxK =>
    simp only [exec, execLdVxK]
    split
    · exact ⟨_, rfl, rfl⟩
    · exact ⟨_, rfl, rfl⟩
  | _ => exact ⟨_, rfl, rfl⟩

/-- The checks read SP, I, the registers and a parameter, none of which phases F and T write. -/
theorem faultOf_beforeExecute (s : State) (i : Instr) : faultOf (beforeExecute s) i = faultOf s i := by
  cases i <;> simp [faultOf]

/-- Committing a next state keeps its fault register (R300). -/
theorem commit_next_fault (s u : State) : ∃ t, commit s (.next u) = .next t ∧ t.fault = u.fault := by
  cases h : u.fault with
  | none => exact ⟨_, commit_next s u h, h⟩
  | some c => exact ⟨_, commit_raised s u c h, rfl⟩

/-- Settles O14: the fetch is checked first; after it phase E raises the fault of the table, as seen at the state the
step began at, and `commit` keeps it. -/
theorem stepFaultsExactlyAsTheTable : Obligations.StepFaultsExactlyAsTheTable := by
  refine ⟨fun s t hrun hpc h => ?_, fun s i hrun => ?_⟩
  · cases (step_of_fetch_past_memory hrun hpc).symm.trans h
    rfl
  · obtain ⟨u, hexec, hfault⟩ := exec_answersFault_faultOf (beforeExecute s) i
    rw [faultOf_beforeExecute, beforeExecute_fault, hrun.1, Option.or_none] at hfault
    rw [step_of_runs hrun, hexec, ← hfault]
    exact commit_next_fault s u

/-! ## The host's moves -/

/-- Settles O27, move by move. -/
theorem hostMovesKeepTheInvariant : Obligations.HostMovesKeepTheInvariant :=
  fun m _ h => legalState_hostMove h m

/-! ## Who reads the random byte -/

/-- A free byte is taken only by Cxnn. -/
theorem Effect.draws_eq {s t : State} {i : Instr} (h : Effect s i t) (hi : ∀ x nn, i ≠ .rnd x nn) :
    t.draws = s.draws := by
  cases h with
  | random x nn _ => exact absurd rfl (hi x nn)
  | _ => simp

/-- The state with `p` on `rand_in`. -/
def State.withRandIn (s : State) (p : Option Byte) : State := { s with randIn := p }

/-- The answer with `p` on `rand_in` of its next state. -/
def answerWithRandIn (p : Option Byte) : Result → Result
  | .next t => .next (t.withRandIn p)
  | .fault c => .fault c
  | .refused r => .refused r

theorem writeResultFlag_withRandIn (x : Nibble) (res f : Byte) (s : State) (p : Option Byte) :
    writeResultFlag x res f (s.withRandIn p) = (writeResultFlag x res f s).withRandIn p := by
  unfold writeResultFlag State.withRandIn
  cases s.cfg.flagOrder <;> rfl

theorem skipIf_withRandIn (cond : Bool) (s : State) (p : Option Byte) :
    skipIf cond (s.withRandIn p) = (skipIf cond s).withRandIn p := by
  cases cond <;> rfl

/-- Executing anything but Cxnn commutes with supplying another byte: no check, operand or branch reads `rand_in`. -/
theorem exec_withRandIn {i : Instr} (hi : ∀ x nn, i ≠ .rnd x nn) (s : State) (p : Option Byte) :
    exec i (s.withRandIn p) = answerWithRandIn p (exec i s) := by
  cases i with
  | rnd x nn => exact absurd rfl (hi x nn)
  | orVxVy | andVxVy | xorVxVy | addVxVy | subVxVy | shrVx | subnVxVy | shlVx =>
    exact congrArg _ (writeResultFlag_withRandIn _ _ _ s p)
  | seVxNn | sneVxNn | seVxVy | sneVxVy | skp | sknp => exact congrArg _ (skipIf_withRandIn _ s p)
  | call | ret =>
    simp only [exec, execCall, execRet, apply_dite (answerWithRandIn p)]
    rfl
  | addIVx | ldFVx | ldBVx | ldMemVx | ldVxMem | drw =>
    simp only [exec, execAddIVx, execLdFVx, execLdBVx, execLdMemVx, execLdVxMem, execDrw,
      apply_ite (answerWithRandIn p)]
    rfl
  | ldVxK =>
    have hkey : lowestKey (s.withRandIn p) = lowestKey s := rfl
    simp only [exec, execLdVxK, hkey]
    cases lowestKey s <;> rfl
  | _ => rfl

/-- Settles O60: the effects other than Cxnn's take no free byte, and the other executions commute with the supply. -/
theorem onlyRndReadsTheRandomByte : Obligations.OnlyRndReadsTheRandomByte := by
  refine fun i s t hi h => ⟨(effect_of_exec h).draws_eq hi, fun p => ?_⟩
  have hcomm := exec_withRandIn hi s p
  rw [h] at hcomm
  exact hcomm

end Sys2Proof.Machine
end

section
/-! The loads of the font and of a program: the bytes each puts in memory, and the glyph Fx29 then points at
(spec/70_reset_and_hazards.md R355, R356; spec/43_index_memory.md R223). -/

namespace Sys2Proof.Machine

/-! ## The program load -/

/-- An image that fits is written at 0x200 (R356). -/
theorem loadProgramRom_of_fits {image : List Byte} (h : image.length ≤ programMax) (s : State) :
    loadProgramRom image s = { s with mem := s.mem.writeBytes programBase image } :=
  if_pos h

/-- An image that does not fit loads nothing (D21). -/
theorem loadProgramRom_of_too_long {image : List Byte} (h : programMax < image.length) (s : State) :
    loadProgramRom image s = s :=
  if_neg (Nat.not_le.mpr h)

/-- Whether or not the image fits, the program load writes memory alone. -/
theorem loadProgramRom_frame (image : List Byte) (s : State) :
    loadProgramRom image s = { s with mem := (loadProgramRom image s).mem } := by
  rcases Nat.lt_or_ge programMax image.length with hlong | hfits
  · rw [loadProgramRom_of_too_long hlong]
  · rw [loadProgramRom_of_fits hfits]

/-- Settles O30: an image that fits is one block write at 0x200, and a longer one is refused. -/
theorem programLoadCopiesTheImage : Obligations.ProgramLoadCopiesTheImage := by
  refine fun image s => ⟨loadProgramRom_frame image s, fun hlong => loadProgramRom_of_too_long hlong s,
    fun hfits a => ?_⟩
  rw [hostMove, loadProgramRom_of_fits hfits]
  exact Memory.read_writeBytes s.mem programBase a image

/-! ## The font load -/

/-- The font load, byte by byte: FONT below 0x50, the old byte from there on (R355). -/
theorem loadFontSprites_readByte (s : State) (a : Nat) :
    (loadFontSprites s).readByte a = if a < 80 then s.cfg.font.toList.getD a 0 else s.readByte a := by
  refine (Memory.read_writeBytes s.mem fontBase a s.cfg.font.toList).trans ?_
  simp [State.readByte]

/-- Settles O31: FONT lies at 0x000 byte for byte, so five times a digit is the address of its glyph. -/
theorem fontLoadPlacesTheGlyphs : Obligations.FontLoadPlacesTheGlyphs := by
  refine fun s => ⟨rfl, fun d j => ?_, fun a ha => ?_, fun x hx => ⟨_, exec_ldFVx_of_digit hx, fun j => ?_⟩⟩
  · have hrow : d.val * 5 + j.val < 80 := by omega
    rw [hostMove, loadFontSprites_readByte, if_pos hrow]
    simp [List.getD_eq_getElem?_getD, hrow]
  · exact (loadFontSprites_readByte s a).trans (if_neg (Nat.not_lt.mpr ha))
  · have hrow : ((hostMove .loadFont s).reg x).toNat * 5 + j.val < 80 := by omega
    rw [State.setI_i, glyphAddr_toNat]
    exact (loadFontSprites_readByte s _).trans (if_pos hrow)

end Sys2Proof.Machine
end
